-- ==== Sys2Proof/Word.lean ====
section
/-! DEFINITION. The unit of data: one wire byte (`00_scope.md` R6, R10, `20_memory.md` R41). -/

namespace Sys2Proof

/-- A wire byte, an unsigned integer 0..255 with bit 7 the most significant (R10). Nothing in the
block reads one as signed. -/
abbrev Byte := BitVec 8

end Sys2Proof
end

