-- ==== Sys2Proof/Machine/Flags.lean ====
section
/-! DEFINITION. The block has no flag register (`10_state.md` R29). The only truth values it computes
are the two equalities inside `VALID`, used up within the operation and never stored. -/

namespace Sys2Proof

/-- The two equalities that make up `VALID` (R29, R85): checksum byte equal, add byte equal. Both
compare all 8 bits. -/
structure TrailerMatch where
  checksum : Bool
  add : Bool
  deriving DecidableEq, Repr

/-- Compare a computed trailer with a stored one, byte by byte (R85). -/
def compareTrailers (computed stored : Byte × Byte) : TrailerMatch where
  checksum := computed.1 == stored.1
  add := computed.2 == stored.2

/-- "A frame is valid iff both trailer bytes match" (R68, R85): neither comparison has priority
(R145). -/
def bothMatch (m : TrailerMatch) : Bool := m.checksum && m.add

end Sys2Proof
end

