-- ==== Sys2Proof/Config.lean ====
section
/-! DEFINITION. The configuration record of `00_scope.md` R7 and its OPEN parameters. The literal
values stand in `Machine/Params.lean`. -/

namespace Sys2Proof

/-- `RST_KIND` (R7, decision D15): polarity and synchrony of the reset input, and how long reset is held,
which `70_reset_and_hazards.md` R161, decision D15 and `93_implementation_defined.md` U8 put here too. No
rule reads it. That the duration is a number of units the spec does not name is a DESIGN CHOICE (log entry
18), safe. -/
structure RstKind where
  activeHigh : Bool
  synchronous : Bool
  duration : Nat
  deriving DecidableEq, Repr, Inhabited

/-- `ROOM_NIBBLE` (R7, decision D16): which nibble of the destination byte a downstream decoder
takes for the room index. No rule of the block reads it. -/
inductive Nibble where
  | high
  | low
  deriving DecidableEq, Repr, Inhabited

/-- The configuration record of R7. It is no state: fixed before reset, never changed (R20). -/
structure Config where
  /-- `SYNC`, the sync marker byte; R8's `0..255` holds by its type. -/
  sync : Byte
  /-- `HDR_LEN`, header length in bytes, sync marker included. -/
  hdrLen : Nat
  /-- `TRL_LEN`, trailer length in bytes. -/
  trlLen : Nat
  /-- `LEN_OFF`, offset of the declared-data-length byte from the sync marker. -/
  lenOff : Nat
  /-- `MOD`, modulus of the add byte. -/
  modulus : Nat
  /-- `CHUNK_MAX`, the most bytes one `PUSH` delivers. -/
  chunkMax : Nat
  /-- `BUF_CAP`, capacity of the work buffer in bytes. -/
  bufCap : Nat
  /-- `RST_KIND`. -/
  rstKind : RstKind
  /-- `ROOM_NIBBLE`. -/
  roomNibble : Nibble
  deriving DecidableEq, Repr

/-- OPEN parameter `CHUNK_MAX` less one: R7 asks only that `CHUNK_MAX` be an integer of at least 1,
so the block's limit is this constant plus one. No body: nothing can be proved of its value.
DESIGN CHOICE (log entry 1), safe. -/
opaque Config.chunkMaxLessOne : Nat

/-- OPEN parameter `RST_KIND`: no body (log entry 18), safe. -/
opaque Config.openRstKind : RstKind

/-- OPEN parameter `ROOM_NIBBLE`: no body (log entry 18), safe. -/
opaque Config.openRoomNibble : Nibble

end Sys2Proof
end

