-- ==== Sys2Proof/Machine/Params.lean ====
section
/-! DEFINITION. The parameter values of `00_scope.md` R7 and the parameters derived from them. The
literals are the source's, unaudited, and `LEN_OFF` is decision D3 (UNVERIFIED, log entry 2): each
stands here once. -/

namespace Sys2Proof

/-- `MAX_LEN`, the largest declared data length: one unsigned byte (R7, R63). -/
def maxLen : Nat := 255

/-- The longest frame with a header and a trailer of these lengths (R64). -/
def longestFrame (hdrLen trlLen : Nat) : Nat := hdrLen + maxLen + trlLen

/-- `MIN_FRAME = HDR_LEN + 0 + TRL_LEN` (R7, R64). -/
def Config.minFrame (cfg : Config) : Nat := cfg.hdrLen + 0 + cfg.trlLen

/-- `MAX_FRAME = HDR_LEN + MAX_LEN + TRL_LEN` (R7, R64). -/
def Config.maxFrame (cfg : Config) : Nat := longestFrame cfg.hdrLen cfg.trlLen

/-- `RB_MAX = MAX_FRAME - 1` (R7, R113). -/
def Config.rbMax (cfg : Config) : Nat := cfg.maxFrame - 1

/-- Total length of a candidate from its length byte, `T = HDR_LEN + zext(L) + TRL_LEN`, in natural
numbers with no wrap (R64). -/
def Config.totalLen (cfg : Config) (len : Byte) : Nat := cfg.hdrLen + len.toNat + cfg.trlLen

/-- The block's configuration (R7). `BUF_CAP` is computed as `RB_MAX + CHUNK_MAX`, so that a corrected
literal is one edit here (R2). -/
def block : Config :=
  let hdrLen := 5
  let trlLen := 2
  let chunkMax := Config.chunkMaxLessOne + 1
  { sync := 0xF7#8
    hdrLen
    trlLen
    lenOff := 4
    modulus := 256
    chunkMax
    bufCap := longestFrame hdrLen trlLen - 1 + chunkMax
    rstKind := Config.openRstKind
    roomNibble := Config.openRoomNibble }

end Sys2Proof
end

