-- ==== Sys2Proof/Machine/Codec.lean ====
section
/-! DEFINITION. The frame codec (`40_frame_codec.md`): pure functions on byte sequences, with no state
and no flag (R80), and the frame format they check (`30_encoding.md` R60 to R64). -/

namespace Sys2Proof

/-- `XOR(s)`: the fold of bitwise exclusive or over the bytes of `s` from `0x00` (R12, R81). -/
def xorFold (s : List Byte) : Byte := s.foldl (fun x b => x ^^^ b) 0#8

/-- `SUM(s)`: the sum of the bytes of `s` as a natural number, no wrap (R12, R82). -/
def sumFold (s : List Byte) : Nat := s.foldl (fun t b => t + b.toNat) 0

/-- `TRAILER(s)` (R84): the checksum byte `XOR(s)` and the add byte `(SUM(s) + XOR(s)) mod MOD`. -/
def trailer (cfg : Config) (s : List Byte) : Byte × Byte :=
  (xorFold s, BitVec.ofNat 8 ((sumFold s + (xorFold s).toNat) % cfg.modulus))

/-- The bytes a candidate's trailer covers: all but the last `TRL_LEN` (R64, R85). -/
def covered (cfg : Config) (f : List Byte) : List Byte := f.take (f.length - cfg.trlLen)

/-- The stored trailer of a candidate, checksum byte then add byte (R61, R85); none when the sequence
is shorter than a trailer (R85, decision D10). -/
def storedTrailer (cfg : Config) (f : List Byte) : Option (Byte × Byte) :=
  if f.length < cfg.trlLen then none
  else
    match f.drop (f.length - cfg.trlLen) with
    | [sx, sa] => some (sx, sa)
    | _ => none

/-- `VALID(f)` (R85): recompute the trailer over all bytes but the trailer itself and compare both
bytes; false for a sequence with no trailer. It looks neither at `f[0]` nor at the length byte (R70). -/
def valid (cfg : Config) (f : List Byte) : Bool :=
  match storedTrailer cfg f with
  | none => false
  | some stored => bothMatch (compareTrailers (trailer cfg (covered cfg f)) stored)

/-- The total length a byte sequence opening at its sync marker declares, once its length byte is
present (R64, R65). -/
def declaredLen (cfg : Config) (f : List Byte) : Option Nat := (f[cfg.lenOff]?).map cfg.totalLen

/-- A candidate (R14): it opens with the sync marker and has the length its own length byte declares. -/
def isCandidate (cfg : Config) (f : List Byte) : Bool :=
  f.head? == some cfg.sync && declaredLen cfg f == some f.length

/-- A frame (`10_state.md` R27): a candidate whose trailer matches. -/
def isFrame (cfg : Config) (f : List Byte) : Bool := isCandidate cfg f && valid cfg f

/-- A frame from its payload and the header's bytes other than sync marker and length byte, in order: the
length byte goes to `LEN_OFF`, the trailer over header and payload comes last (R60, R61, R84). -/
def frameOf (cfg : Config) (others p : List Byte) : List Byte :=
  let h := (cfg.sync :: others).insertIdx cfg.lenOff (BitVec.ofNat 8 p.length) ++ p
  h ++ [(trailer cfg h).1, (trailer cfg h).2]

/-- `FRAME(src, dst, cmd, p)` (`30_encoding.md` R74), for a payload of at most 255 bytes: the named header
bytes are these three, in the order of R61. -/
def buildFrame (cfg : Config) (src dst cmd : Byte) (p : List Byte) : List Byte :=
  frameOf cfg [src, dst, cmd] p

/-- The views of a frame that port `out` presents beside the raw bytes (`10_state.md` R27,
`30_encoding.md` R61). `dst` is the whole destination byte: the block extracts no nibble. -/
structure FrameView where
  src : Byte
  dst : Byte
  cmd : Byte
  len : Byte
  payload : List Byte
  xor : Byte
  add : Byte
  deriving DecidableEq, Repr

/-- The header's bytes other than the length byte, sync marker first (R61). -/
def headerOthers (cfg : Config) (f : List Byte) : List Byte := (f.take cfg.hdrLen).eraseIdx cfg.lenOff

/-- The payload: the bytes between header and trailer (R60, R61). -/
def payloadOf (cfg : Config) (f : List Byte) : List Byte := (covered cfg f).drop cfg.hdrLen

/-- The fields of a frame by the positions of R61: the length byte at `LEN_OFF`, the other header bytes in
the order listed, the payload after `HDR_LEN` bytes, the trailer last; none where the sequence does not
have the length it declares. -/
def viewFrame (cfg : Config) (f : List Byte) : Option FrameView :=
  match headerOthers cfg f, f[cfg.lenOff]?, storedTrailer cfg f with
  | _ :: src :: dst :: cmd :: _, some len, some (x, a) =>
    if f.length = cfg.totalLen len then
      some { src, dst, cmd, len, payload := payloadOf cfg f, xor := x, add := a }
    else none
  | _, _, _ => none

/-- The add byte from an 8-bit accumulator that drops its carry (R83): sum every byte, then the
checksum byte, each addition reduced modulo 256. -/
def addByteByAccumulator (s : List Byte) : Byte := s.foldl (fun t b => t + b) 0#8 + xorFold s

/-- The streaming form of `VALID` (R86): running XOR and sum over the bytes as they arrive, compared
at the end: the XOR through the stored checksum byte is zero and the sum through it is the add byte. -/
def validStreaming (cfg : Config) (f : List Byte) : Bool :=
  match f.getLast? with
  | none => false
  | some last =>
    decide (cfg.trlLen ≤ f.length) && xorFold f.dropLast == 0#8
      && BitVec.ofNat 8 (sumFold f.dropLast % cfg.modulus) == last

end Sys2Proof
end

