-- ==== Sys2Proof/Syntax.lean ====
section
/-! DEFINITION. The eleven operations (`00_scope.md` R9), one constructor per row of
spec/opcode_table.json. A scan operation carries the bytes it is decoded from (the row's fields);
R102 to R107 give it no further operand. DESIGN CHOICE (log entry 9), safe. -/

namespace Sys2Proof

/-- One operation of the block. -/
inductive Instr where
  /-- `TRAILER(s)`: codec function (R84). -/
  | trailer (s : List Byte)
  /-- `VALID(f)`: codec function (R85). -/
  | valid (f : List Byte)
  /-- `END`: scan operation, decoded when no byte remains (R107). -/
  | endPass
  /-- `SKIP`: scan operation, decoded from the one byte at the cursor (R102). -/
  | skip (b : Byte)
  /-- `WAITH`: scan operation, decoded from a tail shorter than a header (R103). -/
  | waith (tail : List Byte)
  /-- `WAITB`: scan operation, decoded from a tail shorter than the frame it declares (R104). -/
  | waitb (tail : List Byte)
  /-- `REJECT`: scan operation, decoded from a complete candidate that fails `VALID` (R105). -/
  | reject (f : List Byte)
  /-- `EMIT`: scan operation, decoded from a complete candidate that passes `VALID` (R106). -/
  | emit (f : List Byte)
  /-- `PUSH(c)`: host operation, a transaction on port `in` (R131). -/
  | push (c : List Byte)
  /-- `RESET`: host operation, a transaction on port `rst` (R133). -/
  | reset
  /-- `EXTRACT(rb, c)`: the composite, one whole pass (R74, R110, conflict C7). -/
  | extract (rb c : List Byte)
  deriving DecidableEq, Repr

/-- The six scan operations, the ones decoded from the stream (R9, R66). -/
def Instr.isScan : Instr → Bool
  | .trailer _ => false
  | .valid _ => false
  | .endPass => true
  | .skip _ => true
  | .waith _ => true
  | .waitb _ => true
  | .reject _ => true
  | .emit _ => true
  | .push _ => false
  | .reset => false
  | .extract _ _ => false

/-- The scan operations that go on within the pass; the other three stop it (R109, R119). -/
def Instr.continuesPass : Instr → Bool
  | .trailer _ => false
  | .valid _ => false
  | .endPass => false
  | .skip _ => true
  | .waith _ => false
  | .waitb _ => false
  | .reject _ => true
  | .emit _ => true
  | .push _ => false
  | .reset => false
  | .extract _ _ => false

/-- The mnemonic of an operation, letter for letter as the opcode table has it, as characters. -/
def Instr.mnemonicChars : Instr → List Char
  | .trailer _ => ['T', 'R', 'A', 'I', 'L', 'E', 'R']
  | .valid _ => ['V', 'A', 'L', 'I', 'D']
  | .endPass => ['E', 'N', 'D']
  | .skip _ => ['S', 'K', 'I', 'P']
  | .waith _ => ['W', 'A', 'I', 'T', 'H']
  | .waitb _ => ['W', 'A', 'I', 'T', 'B']
  | .reject _ => ['R', 'E', 'J', 'E', 'C', 'T']
  | .emit _ => ['E', 'M', 'I', 'T']
  | .push _ => ['P', 'U', 'S', 'H']
  | .reset => ['R', 'E', 'S', 'E', 'T']
  | .extract _ _ => ['E', 'X', 'T', 'R', 'A', 'C', 'T']

end Sys2Proof
end

