-- ==== Sys2Proof/WellFormed.lean ====
section
/-! DEFINITION. When a configuration is well formed (`00_scope.md` R8) and when an operation is (the
`cond` of its row in spec/opcode_table.json, less what speaks of the state). -/

namespace Sys2Proof

/-- Why a configuration is refused, one name per clause of R8. -/
inductive ConfigRefusal where
  /-- `HDR_LEN >= 1` fails. -/
  | headerEmpty
  /-- `LEN_OFF < HDR_LEN` fails. -/
  | lengthOutsideHeader
  /-- `TRL_LEN = 2` fails. -/
  | trailerNotTwo
  /-- `MOD = 256` fails. -/
  | modulusNot256
  /-- `CHUNK_MAX >= 1` fails. -/
  | chunkLimitZero
  /-- `BUF_CAP >= RB_MAX + CHUNK_MAX` fails. -/
  | bufferTooSmall
  deriving DecidableEq, Repr

/-- "A model refuses a configuration that is not well formed" (R8, decision D14): the first clause
that fails, by name, or nothing. -/
def Config.refusal (cfg : Config) : Option ConfigRefusal :=
  if cfg.hdrLen < 1 then some .headerEmpty
  else if cfg.hdrLen ≤ cfg.lenOff then some .lengthOutsideHeader
  else if cfg.trlLen ≠ 2 then some .trailerNotTwo
  else if cfg.modulus ≠ 256 then some .modulusNot256
  else if cfg.chunkMax < 1 then some .chunkLimitZero
  else if cfg.bufCap < cfg.rbMax + cfg.chunkMax then some .bufferTooSmall
  else none

/-- Configuration well-formedness (R8). -/
structure Config.WellFormed (cfg : Config) : Prop where
  header : 1 ≤ cfg.hdrLen
  lengthByte : cfg.lenOff < cfg.hdrLen
  trailer : cfg.trlLen = 2
  modulus : cfg.modulus = 256
  chunk : 1 ≤ cfg.chunkMax
  capacity : cfg.rbMax + cfg.chunkMax ≤ cfg.bufCap

/-- Well-formedness of an operation under a configuration: a decoded scan operation carries bytes its
row of `30_encoding.md` R66 admits; a chunk is within `CHUNK_MAX` (R131). -/
def Instr.wf (cfg : Config) : Instr → Bool
  | .trailer _ => true
  | .valid _ => true
  | .endPass => true
  | .skip b => b != cfg.sync
  | .waith t => t.head? == some cfg.sync && decide (t.length < cfg.hdrLen)
  | .waitb t =>
    t.head? == some cfg.sync && decide (cfg.hdrLen ≤ t.length)
      && (match declaredLen cfg t with
          | some n => decide (t.length < n)
          | none => false)
  | .reject f => isCandidate cfg f && !Sys2Proof.valid cfg f
  | .emit f => isFrame cfg f
  | .push c => decide (c.length ≤ cfg.chunkMax)
  | .reset => true
  | .extract _ c => decide (c.length ≤ cfg.chunkMax)

end Sys2Proof
end

