-- ==== Sys2Proof/Decode.lean ====
section
/-! DEFINITION. Decode of the scan operation from the bytes at and after the cursor
(`30_encoding.md` R66), the encoder beside it, and the written forms of R72 and R73. -/

namespace Sys2Proof

/-- Why bytes or text are not decoded. -/
inductive DecodeRefusal where
  /-- The header is complete and yet holds no length byte: only under a configuration that R8
  refuses. Safe. -/
  | noLengthByte
  /-- Hex text with an odd number of digits (`93_implementation_defined.md` U11: refuse, never guess
  a byte). Safe. -/
  | oddDigits
  /-- A character that is no hexadecimal digit (U11). Safe. -/
  | notHexDigit
  /-- A written line that is neither `PUSH` nor `RESET` (R73). Safe. -/
  | unknownOperation
  deriving DecidableEq, Repr

/-- The decode table of R66, its rows in order, over `r = W[K..]` (so `n = |r|`). Row 0 `END`, row 1
`SKIP`, row 2 `WAITH`, row 3 `WAITB`, rows 4 and 5 `REJECT` and `EMIT`. The length byte is read only
when a whole header is present, the slice only when the whole candidate is. -/
def decode (cfg : Config) (r : List Byte) : Except DecodeRefusal Instr :=
  match r with
  | [] => .ok .endPass
  | b :: _ =>
    if b ≠ cfg.sync then .ok (.skip b)
    else if r.length < cfg.hdrLen then .ok (.waith r)
    else
      match declaredLen cfg r with
      | none => .error .noLengthByte
      | some t =>
        if r.length < t then .ok (.waitb r)
        else if valid cfg (r.take t) then .ok (.emit (r.take t))
        else .ok (.reject (r.take t))

/-- The bytes a scan operation is decoded from (the `encoding` column of the opcode table, R75); none
for the operations that are not decoded from the stream. -/
def encode : Instr → Option (List Byte)
  | .trailer _ => none
  | .valid _ => none
  | .endPass => some []
  | .skip b => some [b]
  | .waith t => some t
  | .waitb t => some t
  | .reject f => some f
  | .emit f => some f
  | .push _ => none
  | .reset => none
  | .extract _ _ => none

/-- The lowest `n` bytes of the number `w`, least significant first: the numbering of
spec/opcode_table.json, where bit 0 is the least significant bit of the first byte. -/
def bytesOfWord : Nat → Nat → List Byte
  | 0, _ => []
  | n + 1, w => BitVec.ofNat 8 w :: bytesOfWord n (w / 256)

/-- How many bytes `nbits` bits take. -/
def bytesForBits (nbits : Nat) : Nat := (nbits + 7) / 8

/-- What the block's decoder reads when exactly the `nbits` bits of `w` stand at and after the cursor.
The number of bytes present is itself part of the decode (R66), so no byte is put after them. DESIGN
CHOICE (log entry 11), safe. -/
def decodeTableWord (nbits w : Nat) : Option Instr :=
  (decode block (bytesOfWord (bytesForBits nbits) w)).toOption

/-! ### Hex text and the written form of host operations -/

/-- The value of a hexadecimal digit, either case (R72, PRESUMED: the spec marks the rule as general
knowledge, log entry 16). -/
def hexValue (c : Char) : Option Nat :=
  if '0'.toNat ≤ c.toNat ∧ c.toNat ≤ '9'.toNat then some (c.toNat - '0'.toNat)
  else if 'A'.toNat ≤ c.toNat ∧ c.toNat ≤ 'F'.toNat then some (c.toNat - 'A'.toNat + 10)
  else if 'a'.toNat ≤ c.toNat ∧ c.toNat ≤ 'f'.toNat then some (c.toNat - 'a'.toNat + 10)
  else none

/-- A pair `hl` is the byte `16 * value(h) + value(l)`, the first character the high nibble (R72). -/
def hexPair (h l : Char) : Except DecodeRefusal Byte :=
  match hexValue h, hexValue l with
  | some hi, some lo => .ok (BitVec.ofNat 8 (16 * hi + lo))
  | _, _ => .error .notHexDigit

/-- Hex text to wire bytes, two characters at a time from the start (R71, R72), for a front end outside
the block; text that is no sequence of pairs is refused (U11). -/
def hexToBytes : List Char → Except DecodeRefusal (List Byte)
  | [] => .ok []
  | [_] => .error .oddDigits
  | h :: l :: rest =>
    match hexPair h l, hexToBytes rest with
    | .ok b, .ok bs => .ok (b :: bs)
    | .error e, _ => .error e
    | _, .error e => .error e

/-- The upper-case hexadecimal digit of a value below 16. -/
def hexDigit (n : Nat) : Char :=
  if n < 10 then Char.ofNat ('0'.toNat + n) else Char.ofNat ('A'.toNat + (n - 10))

/-- Two digits of a byte, high nibble first (R11, R72). -/
def byteToHex (b : Byte) : List Char := [hexDigit (b.toNat / 16), hexDigit (b.toNat % 16)]

/-- Wire bytes to hex text: the form the adapter delivers (R71). -/
def bytesToHex (bs : List Byte) : List Char := bs.flatMap byteToHex

/-- The pairs after `PUSH`, any number of spaces before each (DESIGN CHOICE, log entry 17). -/
def parsePairs : List Char → Except DecodeRefusal (List Byte)
  | [] => .ok []
  | ' ' :: rest => parsePairs rest
  | [_] => .error .oddDigits
  | h :: l :: rest =>
    match hexPair h l, parsePairs rest with
    | .ok b, .ok bs => .ok (b :: bs)
    | .error e, _ => .error e
    | _, .error e => .error e

/-- One line of a host program (R73): `RESET`, or `PUSH` and its hex pairs, or `PUSH` alone. -/
def parseHostLine : List Char → Except DecodeRefusal Instr
  | ['R', 'E', 'S', 'E', 'T'] => .ok .reset
  | 'P' :: 'U' :: 'S' :: 'H' :: rest =>
    match parsePairs rest with
    | .ok c => .ok (.push c)
    | .error e => .error e
  | _ => .error .unknownOperation

/-- The pairs of a chunk, each after one space (R11, R73). -/
def writePairs (c : List Byte) : List Char := c.flatMap fun b => ' ' :: byteToHex b

/-- The written form of a host operation (R73); none for the others. -/
def writeHostLine : Instr → Option (List Char)
  | .trailer _ => none
  | .valid _ => none
  | .endPass => none
  | .skip _ => none
  | .waith _ => none
  | .waitb _ => none
  | .reject _ => none
  | .emit _ => none
  | .push c => some (Instr.mnemonicChars (.push c) ++ writePairs c)
  | .reset => some (Instr.mnemonicChars .reset)
  | .extract _ _ => none

/-- A natural number in decimal digits. -/
def decimal (n : Nat) : List Char := Nat.toDigits 10 n

/-- What a trace adds in brackets after `OP@k` (R73): `(n=m)` after `WAITH`, `(n=m,T=t)` after `WAITB`,
`(T=t)` after `REJECT` and `EMIT`. -/
def traceNote (cfg : Config) : Instr → List Char
  | .trailer _ => []
  | .valid _ => []
  | .endPass => []
  | .skip _ => []
  | .waith t => ['(', 'n', '='] ++ decimal t.length ++ [')']
  | .waitb t =>
    ['(', 'n', '='] ++ decimal t.length
      ++ (match declaredLen cfg t with
          | some n => [',', 'T', '='] ++ decimal n
          | none => [])
      ++ [')']
  | .reject f => ['(', 'T', '='] ++ decimal f.length ++ [')']
  | .emit f => ['(', 'T', '='] ++ decimal f.length ++ [')']
  | .push _ => []
  | .reset => []
  | .extract _ _ => []

/-- One item of a trace, `OP@k` with its note (R73). -/
def traceItem (cfg : Config) (i : Instr) (k : Nat) : List Char :=
  i.mnemonicChars ++ ['@'] ++ decimal k ++ traceNote cfg i

end Sys2Proof
end

