-- ==== Sys2Proof/Machine/State.lean ====
section
/-! DEFINITION. The state record of `10_state.md` R20, its two traces, the model's own two fields, and
the ways a step can stop. -/

namespace Sys2Proof.Machine

/-- `PHASE` (R24): whether a pass is in progress. -/
inductive Phase where
  | idle
  | scan
  deriving DecidableEq, Repr

/-- A frame record as port `out` presents it (R27): the raw bytes; the views are `viewFrame` of them. -/
structure Frame where
  raw : List Byte
  deriving DecidableEq, Repr

/-- A diagnostic event (R26, R142). -/
inductive Event where
  /-- `Skip(b)` with the dropped byte. -/
  | skip (b : Byte)
  /-- `Reject(T, cx, ca, sx, sa)`: the candidate's length, the computed checksum and add bytes, the
  stored checksum and add bytes. -/
  | reject (len : Nat) (cx ca sx sa : Byte)
  deriving DecidableEq, Repr

/-- A future move of the host (R47, R135). The MODEL's own (log entry 4). -/
inductive HostAct where
  /-- The host asks nothing for one step: it waits, or leaves the extractor a step. -/
  | gap
  /-- The host presents a chunk on port `in` and holds it until it is taken (R131, R168). -/
  | push (c : List Byte)
  /-- The host asks for a reset on port `rst` (R133). -/
  | reset
  deriving DecidableEq, Repr

/-- What a codec function or the composite returned (R84, R85, R110). The MODEL's own (log entry 6). -/
inductive Answer where
  | trailer (checksum add : Byte)
  | valid (holds : Bool)
  | extract (frames : List Frame) (residual : List Byte)
  deriving DecidableEq, Repr

/-- Reasons of a fault: there are none. "No condition in the core is fatal" (`60_exceptions.md` R140);
`93_implementation_defined.md` treats no behaviour as a fault (log entry 13). -/
inductive Fault
  deriving DecidableEq, Repr

/-- Reasons a step has no meaning: the boundary of R140 and states no run reaches. -/
inductive Refusal where
  /-- Raised by no arm: every operation has its meaning. Safe. -/
  | notModelled (mnemonic : String)
  /-- A scan operation that the decode does not select for this state, or any in `IDLE` (R101): it has
  no step. Raised by the six scan operations. Safe. -/
  | scanNotSelected
  /-- `PUSH` (or `EXTRACT`) while `PHASE = SCAN` (R131, U5): no step until `IDLE`. Safe. -/
  | pushDuringPass
  /-- A chunk longer than `CHUNK_MAX` (R131, U3): no step. Raised by `PUSH` and `EXTRACT`. Safe. -/
  | chunkOverLimit
  /-- `EXTRACT(rb, c)` in a state whose residual is not `rb` (R74): not the pass it names. Safe. -/
  | otherResidual
  /-- A read outside the work buffer (R45: refuse, return no value): a cursor beyond `|W|`, which no
  run reaches. Raised where the scan operation is selected. Safe. -/
  | readOutsideBuffer
  /-- The decoder refuses the bytes at the cursor: only under a configuration R8 refuses. Safe. -/
  | undecodable (reason : DecodeRefusal)
  /-- A pass of `EXTRACT` still in `SCAN` after `|W| + 1` scan operations: R109 says that never
  happens. Safe. -/
  | passUnfinished
  deriving DecidableEq, Repr

/-- The state of the block (R20), and the model's own `host` and `answer`. -/
structure State where
  /-- `PHASE` (R24). -/
  phase : Phase
  /-- `RB`, the residual buffer (R21). -/
  rb : List Byte
  /-- `W`, the work buffer (R22). -/
  w : List Byte
  /-- `K`, the scan cursor (R23). -/
  k : Nat
  /-- `OUT`, the output trace (R25). -/
  out : List Frame
  /-- `LOG`, the diagnostic trace (R26), kept (log entry 7). -/
  log : List Event
  /-- MODEL: the host's future moves, earliest first (log entry 4). -/
  host : List HostAct
  /-- MODEL: the last value returned by `TRAILER`, `VALID` or `EXTRACT` (log entry 6). -/
  answer : Option Answer
  deriving DecidableEq, Repr

/-- The machine right after the first reset (R33): `PHASE = IDLE`, `RB`, `W` empty, `K = 0`, both traces
empty. The model's own fields hold nothing (DESIGN CHOICE, log entries 4 and 6). -/
def State.reset : State where
  phase := .idle
  rb := []
  w := []
  k := 0
  out := []
  log := []
  host := []
  answer := none

end Sys2Proof.Machine
end

