-- ==== Sys2Proof/Machine/Operands.lean ====
section
/-! DEFINITION. The four effective addresses, all relative to the cursor (`41_frame_extractor.md`
R120): `K`, `K + LEN_OFF`, the slice `[K, K + T)`, the tail `[K, |W|)`; and the status outputs. -/

namespace Sys2Proof.Machine

/-- `MemRead(a, n) = m[a..a+n)`, defined only for `a + n <= |m|` (R13, R45). -/
def memRead (m : List Byte) (a n : Nat) : Option (List Byte) :=
  if a + n ≤ m.length then some ((m.drop a).take n) else none

/-- The tail `W[K..]`, the bytes at and after the cursor; none when the cursor lies outside (R45). -/
def State.tail (s : State) : Option (List Byte) := memRead s.w s.k (s.w.length - s.k)

/-- The sync test's byte `W[K]` (R120). -/
def State.syncByte (s : State) : Option (List Byte) := memRead s.w s.k 1

/-- The length byte `W[K + LEN_OFF]` (R64, R120). -/
def State.lengthByte (s : State) : Option (List Byte) := memRead s.w (s.k + block.lenOff) 1

/-- The slice `W[K..K+T)` (R120). -/
def State.slice (s : State) (t : Nat) : Option (List Byte) := memRead s.w s.k t

/-- Status output `phase` (R30, R34). -/
def State.phaseOut (s : State) : Phase := s.phase

/-- Status output `rb_len` (R30, R34). -/
def State.rbLen (s : State) : Nat := s.rb.length

/-- The bytes still held (R54): `W[K..]` in `SCAN`, `RB` in `IDLE`. -/
def State.held (s : State) : List Byte :=
  match s.phase with
  | .scan => s.w.drop s.k
  | .idle => s.rb

end Sys2Proof.Machine
end

