-- ==== Sys2Proof/Machine/Ops.lean ====
section
/-! DEFINITION. The named operations over the state that the meanings share: the whole-sequence writes
of `20_memory.md` R46, the cursor's moves (`10_state.md` R23), the port traces, and the selection of the
scan operation. Nothing here enters an exception: the block has none (`60_exceptions.md` R140, R146). -/

namespace Sys2Proof.Machine

/-- `K <- K + n`, natural-number addition (R108). -/
def State.advance (s : State) (n : Nat) : State := { s with k := s.k + n }

/-- `RB <- t` (R46). -/
def State.setResidual (s : State) (t : List Byte) : State := { s with rb := t }

/-- `W <- ⟨⟩ ; K <- 0 ; PHASE <- IDLE`: the stop of a pass (R13, R22, R23). -/
def State.stopPass (s : State) : State := { s with w := [], k := 0, phase := .idle }

/-- `W <- RB ++ c ; RB <- ⟨⟩ ; K <- 0 ; PHASE <- SCAN`: the start of a pass (R131, R132). -/
def State.startPass (s : State) (c : List Byte) : State :=
  { s with w := s.rb ++ c, rb := [], k := 0, phase := .scan }

/-- `emit f`: `OUT <- OUT ++ ⟨f⟩`; the host takes the frame in the same atomic step (R13, R134). -/
def State.deliver (s : State) (f : List Byte) : State := { s with out := s.out ++ [⟨f⟩] }

/-- `log e`: `LOG <- LOG ++ ⟨e⟩` (R13, R26). -/
def State.record (s : State) (es : List Event) : State := { s with log := s.log ++ es }

/-- The reset values of R33 and R133; `OUT` and `LOG` stay. -/
def State.clear (s : State) : State := { s with phase := .idle, rb := [], w := [], k := 0 }

/-- The value a codec function or the composite returns to whoever invoked it (log entry 6). -/
def State.answerWith (s : State) (a : Answer) : State := { s with answer := some a }

/-- The host's script after a move of it has been taken. -/
def State.withHost (s : State) (h : List HostAct) : State := { s with host := h }

/-- The `Reject` event of a candidate (R26, R142): its length, the recomputed trailer, the stored one. -/
def rejectEvent (f : List Byte) : Option Event :=
  (storedTrailer block f).map fun stored =>
    .reject f.length (trailer block (covered block f)).1 (trailer block (covered block f)).2
      stored.1 stored.2

/-- The scan operation that R66 selects for the current `W` and `K` (R101); none in `IDLE`. -/
def State.selected (s : State) : Except Refusal Instr :=
  match s.phase with
  | .idle => .error .scanNotSelected
  | .scan =>
    match s.tail with
    | none => .error .readOutsideBuffer
    | some r =>
      match decode block r with
      | .ok i => .ok i
      | .error e => .error (.undecodable e)

/-- A scan operation's one shape: it takes its next state exactly where R66 selects it (R101: the
decode governs the enabling condition), and has no step elsewhere (R140). -/
def whenSelected (i : Instr) (s t : State) : Host.Outcome State Fault Refusal :=
  match s.selected with
  | .error e => .refused e
  | .ok j => if j = i then .next t else .refused .scanNotSelected

/-- Go on from a next state; a stop stays as it is. -/
def andThen (r : Host.Outcome State Fault Refusal)
    (g : State → Host.Outcome State Fault Refusal) : Host.Outcome State Fault Refusal :=
  match r with
  | .next s => g s
  | .fault e => .fault e
  | .refused e => .refused e

/-- The next state of an outcome, if it is one. -/
def nextOf (r : Host.Outcome State Fault Refusal) : Option State :=
  match r with
  | .next s => some s
  | .fault _ => none
  | .refused _ => none

/-- Why an outcome is a refusal, if it is one. -/
def refusalOf (r : Host.Outcome State Fault Refusal) : Option Refusal :=
  match r with
  | .next _ => none
  | .fault _ => none
  | .refused e => some e

/-- The conditions of `60_exceptions.md` R141 that the block detects. None is fatal, none transfers
control: each names the operation that handles it. -/
inductive Condition where
  | noiseByte
  | checksumMismatch
  | insufficientHeader
  | insufficientBody
  deriving DecidableEq, Repr

/-- The one condition a scan operation meets, if any (R141, R145). -/
def conditionOf : Instr → Option Condition
  | .trailer _ => none
  | .valid _ => none
  | .endPass => none
  | .skip _ => some .noiseByte
  | .waith _ => some .insufficientHeader
  | .waitb _ => some .insufficientBody
  | .reject _ => some .checksumMismatch
  | .emit _ => none
  | .push _ => none
  | .reset => none
  | .extract _ _ => none

end Sys2Proof.Machine
end

