-- ==== Sys2Proof/Machine/Arbiter.lean ====
section
/-! DEFINITION. Which operation the next step performs: the host and the extractor never act at once
(`20_memory.md` R47). -/

namespace Sys2Proof.Machine

/-- A step that the host leaves to the block uses up a `gap` at the head of its script; a chunk the host
presents is held (R135, R168). -/
def afterGap : List HostAct → List HostAct
  | .gap :: h => h
  | h => h

/-- The operation of the next step, if there is one, and the state it acts on. A `RESET` is taken in
either phase, before the next operation (R133, R145). In `SCAN` the extractor performs the selected scan
operation and a chunk the host presents waits (R131, R168). In `IDLE` a presented chunk is taken; with
none the block does nothing (R155). DESIGN CHOICE (log entries 4 and 5). -/
def arbitrate (s : State) : Except Refusal (Option Instr × State) :=
  match s.host with
  | .reset :: h => .ok (some .reset, s.withHost h)
  | .push c :: h =>
    match s.phase with
    | .idle => .ok (some (.push c), s.withHost h)
    | .scan => s.selected.map fun i => (some i, s)
  | h =>
    match s.phase with
    | .idle => .ok (none, s.withHost (afterGap h))
    | .scan => s.selected.map fun i => (some i, s.withHost (afterGap h))

/-- The state with exactly these bytes in the work buffer, a pass in progress and the cursor at the first
of them, the host asking nothing (log entry 11). -/
def State.withWork (s : State) (bytes : List Byte) : State :=
  { s with phase := .scan, w := bytes, k := 0, host := [] }

end Sys2Proof.Machine
end

