-- ==== Sys2Proof/Machine/CodecOps.lean ====
section
/-! DEFINITION. The meanings of the codec functions `TRAILER` and `VALID` (`40_frame_codec.md` R84, R85):
defined in every state, they read and write none of it (R80); the value returned stands in the model's
own field `answer` (log entry 6). -/

namespace Sys2Proof.Machine

/-- `TRAILER(s)` returns `(XOR(s), (SUM(s) + XOR(s)) mod 256)` (R84). -/
def execTrailer (bytes : List Byte) (s : State) : Host.Outcome State Fault Refusal :=
  .next (s.answerWith (.trailer (trailer block bytes).1 (trailer block bytes).2))

/-- `VALID(f)` returns whether both trailer bytes match (R85). -/
def execValid (f : List Byte) (s : State) : Host.Outcome State Fault Refusal :=
  .next (s.answerWith (.valid (valid block f)))

end Sys2Proof.Machine
end

