-- ==== Sys2Proof/Machine/HostOps.lean ====
section
/-! DEFINITION. The meanings of the host operations `PUSH` and `RESET` (`42_host_ops.md` R131, R133). -/

namespace Sys2Proof.Machine

/-- `PUSH(c)` (R131): enabled when `PHASE = IDLE` and `|c| <= CHUNK_MAX`; it starts a pass over the
residual followed by the chunk. Not enabled, it has no step. -/
def execPush (c : List Byte) (s : State) : Host.Outcome State Fault Refusal :=
  match s.phase with
  | .scan => .refused .pushDuringPass
  | .idle => if c.length ≤ block.chunkMax then .next (s.startPass c) else .refused .chunkOverLimit

/-- `RESET` (R133): enabled in either phase; `PHASE`, `RB`, `W`, `K` take their reset values. -/
def execReset (s : State) : Host.Outcome State Fault Refusal :=
  .next s.clear

end Sys2Proof.Machine
end

