-- ==== Sys2Proof/Machine/ScanOps.lean ====
section
/-! DEFINITION. The meanings of the six scan operations (`41_frame_extractor.md` R102 to R107). Each has
its effect exactly where the decode selects it, and none raises anything (`60_exceptions.md` R140). -/

namespace Sys2Proof.Machine

/-- `END` (R107): `W <- ⟨⟩ ; K <- 0 ; PHASE <- IDLE`; `RB` as it was. -/
def execEnd (s : State) : Host.Outcome State Fault Refusal :=
  whenSelected .endPass s s.stopPass

/-- `SKIP` (R102): log the dropped byte, `K <- K + 1`. -/
def execSkip (b : Byte) (s : State) : Host.Outcome State Fault Refusal :=
  whenSelected (.skip b) s ((s.record [.skip b]).advance 1)

/-- `WAITH` (R103): `RB <- W[K..]`, then stop. -/
def execWaith (tail : List Byte) (s : State) : Host.Outcome State Fault Refusal :=
  whenSelected (.waith tail) s (s.setResidual tail).stopPass

/-- `WAITB` (R104): `RB <- W[K..]`, then stop. -/
def execWaitb (tail : List Byte) (s : State) : Host.Outcome State Fault Refusal :=
  whenSelected (.waitb tail) s (s.setResidual tail).stopPass

/-- `REJECT` (R105): log both trailers, `K <- K + 1`: one byte is dropped, the sync byte. -/
def execReject (f : List Byte) (s : State) : Host.Outcome State Fault Refusal :=
  whenSelected (.reject f) s ((s.record (rejectEvent f).toList).advance 1)

/-- `EMIT` (R106): `OUT <- OUT ++ ⟨f⟩ ; RB <- ⟨⟩ ; K <- K + T`. -/
def execEmit (f : List Byte) (s : State) : Host.Outcome State Fault Refusal :=
  whenSelected (.emit f) s (((s.deliver f).setResidual []).advance f.length)

end Sys2Proof.Machine
end

