-- ==== Sys2Proof/Machine/Pass.lean ====
section
/-! DEFINITION. The composite `EXTRACT` (`30_encoding.md` R74, `41_frame_extractor.md` R110): `PUSH`, then
scan operations up to and including the first that stops the pass. -/

namespace Sys2Proof.Machine

/-- The effect of a scan operation; the other operations are never selected by the decode. -/
def execScan (i : Instr) (s : State) : Host.Outcome State Fault Refusal :=
  match i with
  | .trailer _ => .refused .scanNotSelected
  | .valid _ => .refused .scanNotSelected
  | .endPass => execEnd s
  | .skip b => execSkip b s
  | .waith t => execWaith t s
  | .waitb t => execWaitb t s
  | .reject f => execReject f s
  | .emit f => execEmit f s
  | .push _ => .refused .scanNotSelected
  | .reset => .refused .scanNotSelected
  | .extract _ _ => .refused .scanNotSelected

/-- One step of the extractor: the scan operation that is selected (R101). -/
def scanStep (s : State) : Host.Outcome State Fault Refusal :=
  match s.selected with
  | .error e => .refused e
  | .ok i => execScan i s

/-- Scan operations until `PHASE = IDLE`, at most as many as the first argument says. -/
def runPass : Nat → State → Host.Outcome State Fault Refusal
  | 0, _ => .refused .passUnfinished
  | n + 1, s =>
    andThen (scanStep s) fun t =>
      match t.phase with
      | .idle => .next t
      | .scan => runPass n t

/-- What a pass that led from `s` to `t` returns: the frames emitted in it and the new residual (R110). -/
def passAnswer (s t : State) : Answer := .extract (t.out.drop s.out.length) t.rb

/-- `EXTRACT(rb, c)`: enabled as `PUSH(c)`, in a state whose residual is `rb` (R74); a pass takes at most
`|W| + 1` scan operations (R109). -/
def execExtract (rb c : List Byte) (s : State) : Host.Outcome State Fault Refusal :=
  andThen (execPush c s) fun s₁ =>
    if s.rb = rb then
      andThen (runPass (s₁.w.length + 1) s₁) fun t => .next (t.answerWith (passAnswer s t))
    else .refused .otherResidual

end Sys2Proof.Machine
end

