-- ==== Sys2Proof/Machine/Dispatch.lean ====
section
/-! DEFINITION. One arm per operation (`00_scope.md` R9). -/

namespace Sys2Proof.Machine

def exec (i : Instr) (s : State) : Host.Outcome State Fault Refusal :=
  match i with
  | .trailer bytes => Sys2Proof.Machine.execTrailer bytes s
  | .valid f => Sys2Proof.Machine.execValid f s
  | .endPass => Sys2Proof.Machine.execEnd s
  | .skip b => Sys2Proof.Machine.execSkip b s
  | .waith tail => Sys2Proof.Machine.execWaith tail s
  | .waitb tail => Sys2Proof.Machine.execWaitb tail s
  | .reject f => Sys2Proof.Machine.execReject f s
  | .emit f => Sys2Proof.Machine.execEmit f s
  | .push c => Sys2Proof.Machine.execPush c s
  | .reset => Sys2Proof.Machine.execReset s
  | .extract rb c => Sys2Proof.Machine.execExtract rb c s

end Sys2Proof.Machine
end

