-- ==== Sys2Proof/Machine/Step.lean ====
section
/-! DEFINITION. One step of the machine: one atomic operation (`00_scope.md` R6, R13), or a step in which
the idle block does nothing (`60_exceptions.md` R155). -/

namespace Sys2Proof.Machine

/-- The step: the operation the arbiter names, or none. -/
def step (s : State) : Host.Outcome State Fault Refusal :=
  match arbitrate s with
  | .error e => .refused e
  | .ok (none, t) => .next t
  | .ok (some i, t) => exec i t

/-- `s` with the bytes of the word `w` (`nbits` bits of it) standing in the work buffer at the cursor, so
that the very next step runs the operation they decode to (log entry 11). -/
def State.withFetchWord (s : State) (nbits w : Nat) : State :=
  s.withWork (bytesOfWord (bytesForBits nbits) w)

end Sys2Proof.Machine
end

