-- ==== Sys2Proof/Machine/Realisation.lean ====
section
/-! DEFINITION. The physical realisation of `10_state.md` R35: one byte memory `BUF[0..BUF_CAP)`, a fill
count and the cursor stand for both `RB` and `W`. Informative in the spec; nothing of the machine
depends on it. What R35 does not say of `RESET` is DEDUCED (log entry 21). -/

namespace Sys2Proof.Machine

/-- `BUF`, `FILL`, `K` and the phase (R35). -/
structure Buffer where
  mem : List Byte
  fill : Nat
  k : Nat
  phase : Phase
  deriving DecidableEq, Repr

/-- The bytes `BUF[0..FILL)`. -/
def Buffer.filled (b : Buffer) : List Byte := b.mem.take b.fill

/-- The residual the buffer realises: `BUF[0..FILL)` in `IDLE` (R35), nothing in `SCAN`. -/
def Buffer.residual (b : Buffer) : List Byte :=
  match b.phase with
  | .idle => b.filled
  | .scan => []

/-- The work buffer it realises: `BUF[0..FILL)` in `SCAN` (R35), nothing in `IDLE`. -/
def Buffer.work (b : Buffer) : List Byte :=
  match b.phase with
  | .idle => []
  | .scan => b.filled

/-- `PUSH(c)`: write `c` at `BUF[FILL..FILL+|c|)`, add `|c|` to `FILL` (R35). -/
def Buffer.pushBytes (b : Buffer) (c : List Byte) : Buffer where
  mem := b.mem.take b.fill ++ c ++ b.mem.drop (b.fill + c.length)
  fill := b.fill + c.length
  k := 0
  phase := .scan

/-- `WAITH`, `WAITB`: move `BUF[K..FILL)` down to offset 0, `FILL <- FILL - K` (R35). -/
def Buffer.moveDown (b : Buffer) : Buffer where
  mem := (b.mem.drop b.k).take (b.fill - b.k) ++ b.mem.drop (b.fill - b.k)
  fill := b.fill - b.k
  k := 0
  phase := .idle

/-- `END`: `FILL <- 0` (R35); `RESET` alike. -/
def Buffer.discard (b : Buffer) : Buffer := { b with fill := 0, k := 0, phase := .idle }

/-- What each operation does to the realisation. `EXTRACT` is no step (R9): its parts are. -/
def Buffer.apply (b : Buffer) (i : Instr) : Buffer :=
  match i with
  | .trailer _ => b
  | .valid _ => b
  | .endPass => b.discard
  | .skip _ => { b with k := b.k + 1 }
  | .waith _ => b.moveDown
  | .waitb _ => b.moveDown
  | .reject _ => { b with k := b.k + 1 }
  | .emit f => { b with k := b.k + f.length }
  | .push c => b.pushBytes c
  | .reset => b.discard
  | .extract _ _ => b

/-- The buffer realises the state: it has `BUF_CAP` bytes, and its phase, cursor, residual and work buffer
are the state's. -/
structure Buffer.Realises (b : Buffer) (s : State) : Prop where
  size : b.mem.length = block.bufCap
  fill : b.fill ≤ block.bufCap
  phase : b.phase = s.phase
  cursor : b.k = s.k
  residual : b.residual = s.rb
  work : b.work = s.w

end Sys2Proof.Machine
end

