-- ==== Sys2Proof/Machine/Scan.lean ====
section
/-! DEFINITION. The pass as a function (`41_frame_extractor.md` R110), written from its own pseudocode
and not from the decode table, so that the two can be compared. -/

namespace Sys2Proof.Machine

/-- `scan(W, K)` of R110 with a bound on its recursion; `scan` gives it `|W| - K + 1`, one more than the
bytes left, which the recursion never uses up. -/
def scanFuel (cfg : Config) (w : List Byte) : Nat → Nat → List Frame × List Byte
  | 0, k => ([], w.drop k)
  | fuel + 1, k =>
    match w.drop k with
    | [] => ([], [])
    | b :: r =>
      if b ≠ cfg.sync then scanFuel cfg w fuel (k + 1)
      else if (b :: r).length < cfg.hdrLen then ([], b :: r)
      else
        match (b :: r)[cfg.lenOff]? with
        | none => ([], b :: r)
        | some len =>
          let t := cfg.hdrLen + len.toNat + cfg.trlLen
          if (b :: r).length < t then ([], b :: r)
          else
            let f := (b :: r).take t
            if valid cfg f then
              let (fs, res) := scanFuel cfg w fuel (k + t)
              (⟨f⟩ :: fs, res)
            else scanFuel cfg w fuel (k + 1)

/-- `scan(W, K)` (R110): the frames of the rest of the pass and the residual it leaves. -/
def scan (cfg : Config) (w : List Byte) (k : Nat) : List Frame × List Byte :=
  scanFuel cfg w (w.length - k + 1) k

/-- `EXTRACT(rb, c) = scan(rb ++ c, 0)` (R110). -/
def extract (cfg : Config) (rb c : List Byte) : List Frame × List Byte := scan cfg (rb ++ c) 0

/-- Successive passes over the chunks of a stream, from the residual `rb`: all frames in order and the
last residual (R115). -/
def extractAll (cfg : Config) (rb : List Byte) : List (List Byte) → List Frame × List Byte
  | [] => ([], rb)
  | c :: cs =>
    let (fs, r) := extract cfg rb c
    let (gs, r') := extractAll cfg r cs
    (fs ++ gs, r')

end Sys2Proof.Machine
end

