-- ==== Sys2Proof/Safety.lean ====
section
/-! DEFINITION. What counts as a safe state and a safe run, in the terms claims use: the invariants of
`10_state.md` R32, the host's duty (`42_host_ops.md` R135), the end of a run (R136), and the accounts of
the stream (`20_memory.md` R53, R54). -/

namespace Sys2Proof.Machine

/-- The state invariants of R32, items 1 to 7. -/
structure State.Inv (s : State) : Prop where
  /-- Item 1: `K <= |W|`. -/
  cursor : s.k ≤ s.w.length
  /-- Item 1: `|W| <= BUF_CAP`. -/
  capacity : s.w.length ≤ block.bufCap
  /-- Item 2: `|RB| <= RB_MAX`. -/
  residual : s.rb.length ≤ block.rbMax
  /-- Item 3: `IDLE` implies `W = ⟨⟩` and `K = 0`. -/
  idle : s.phase = .idle → s.w = [] ∧ s.k = 0
  /-- Item 4: `SCAN` implies `RB = ⟨⟩`. -/
  scan : s.phase = .scan → s.rb = []
  /-- Item 5: a non-empty residual opens with the sync marker. -/
  opens : s.rb ≠ [] → s.rb.head? = some block.sync
  /-- Item 6: a residual with a complete header is shorter than the frame it declares. -/
  incomplete : ∀ n, block.hdrLen ≤ s.rb.length → declaredLen block s.rb = some n → s.rb.length < n
  /-- Item 7: every element of `OUT` is a frame. -/
  frames : ∀ f ∈ s.out, isFrame block f.raw = true

/-- The form of the two storage spaces (R32 items 1 and 2, R40): `RB` within `RB_MAX`, `W` within
`BUF_CAP`, the cursor within `W`. A byte sequence has one form, so equal buffers are equal data. -/
def Memory.wf (s : State) : Bool :=
  decide (s.rb.length ≤ block.rbMax) && decide (s.w.length ≤ block.bufCap)
    && decide (s.k ≤ s.w.length)

/-- A run of `n` steps, stopping at the first stop. -/
def run : Nat → State → Host.Outcome State Fault Refusal
  | 0, s => .next s
  | n + 1, s => andThen (step s) (run n)

/-- The host keeps its duty of R135 in what it will still ask: no chunk over `CHUNK_MAX`. -/
def State.HostWithinLimit (s : State) : Prop :=
  ∀ c, HostAct.push c ∈ s.host → c.length ≤ block.chunkMax

/-- The end of a run (R136): `PHASE = IDLE` and no host operation left. -/
def State.Quiescent (s : State) : Prop := s.phase = .idle ∧ s.host = []

/-- The number of stream bytes accounted for (R54): inside emitted frames, dropped (one per event of
`LOG`), or still held. -/
def State.accounted (s : State) : Nat :=
  (s.out.map fun f => f.raw.length).sum + s.log.length + s.held.length

/-- Frames with the dropped bytes around them, in stream order (R53): gap, frame, gap, frame, and so on,
then what gaps are left. -/
def weave : List (List Byte) → List Frame → List Byte
  | gs, [] => gs.flatten
  | [], f :: fs => f.raw ++ weave [] fs
  | g :: gs, f :: fs => g ++ (f.raw ++ weave gs fs)

/-- Where a scan operation that goes on with the pass leaves the cursor (R119); none where the pass stops. -/
def nextCursor (i : Instr) (k : Nat) : Option Nat :=
  match i with
  | .trailer _ => none
  | .valid _ => none
  | .endPass => none
  | .skip _ => some (k + 1)
  | .waith _ => none
  | .waitb _ => none
  | .reject _ => some (k + 1)
  | .emit f => some (k + f.length)
  | .push _ => none
  | .reset => none
  | .extract _ _ => none

/-- The cursor values a pass over `w` takes from `k` on, in order, at most as many as the number says. -/
def visitedFrom (cfg : Config) (w : List Byte) : Nat → Nat → List Nat
  | 0, _ => []
  | n + 1, k =>
    k :: (match decode cfg (w.drop k) with
      | .ok i =>
        match nextCursor i k with
        | some m => visitedFrom cfg w n m
        | none => []
      | .error _ => [])

/-- The cursor values a whole pass over `w` takes; it has at most `|w| + 1` scan operations (R109). -/
def visited (cfg : Config) (w : List Byte) : List Nat := visitedFrom cfg w (w.length + 1) 0

/-- The state the machine has after a whole pass that emitted `fs`, logged `es` and left `r` (R110). -/
def State.afterPass (s : State) (fs : List Frame) (es : List Event) (r : List Byte) : State :=
  { s with phase := .idle, rb := r, w := [], k := 0, out := s.out ++ fs, log := s.log ++ es }

end Sys2Proof.Machine
end

