-- ==== Sys2Proof/Certificates/Slice0/Obligations.lean ====
section
/-! DEFINITION. The statements for the provers. Each docstring names the rule of spec/ it formalises, or
says that it rests on a choice of the model and names the log entry. -/

open Sys2Proof Sys2Proof.Machine

/-! ### Reset and the host operations -/

/-- R33. The state after `RESET` is `IDLE`, empty residual, empty work buffer, cursor 0, the traces as
they were; before the first reset both traces are empty; the status outputs follow. -/
def Obligations.ResetLeavesTheSpecState : Prop :=
  (State.reset.phase = .idle ∧ State.reset.rb = [] ∧ State.reset.w = [] ∧ State.reset.k = 0 ∧
    State.reset.out = [] ∧ State.reset.log = [] ∧
    State.reset.phaseOut = .idle ∧ State.reset.rbLen = 0) ∧
  ∀ s : State, ∃ t, exec .reset s = .next t ∧
    t.phase = .idle ∧ t.rb = [] ∧ t.w = [] ∧ t.k = 0 ∧ t.out = s.out ∧ t.log = s.log ∧
    t.phaseOut = .idle ∧ t.rbLen = 0

/-- R133. `RESET` is enabled in every state, writes `PHASE`, `RB`, `W`, `K` and nothing else, and is
idempotent. -/
def Obligations.ResetClearsInEitherPhase : Prop :=
  ∀ s : State,
    exec .reset s = .next { s with phase := .idle, rb := [], w := [], k := 0 } ∧
    exec .reset { s with phase := .idle, rb := [], w := [], k := 0 } =
      .next { s with phase := .idle, rb := [], w := [], k := 0 }

/-- R131. `PUSH(c)` in `IDLE` within `CHUNK_MAX` starts a pass over the residual followed by the chunk;
otherwise it has no step; after it the work buffer is within `BUF_CAP`; the pass of an empty chunk (the
composite `EXTRACT` of R74) leads back to the state it was pushed in, but for the model's own `answer`. -/
def Obligations.PushStartsAPass : Prop :=
  ∀ (s : State) (c : List Byte),
    (s.phase = .idle → c.length ≤ block.chunkMax →
      exec (.push c) s = .next { s with w := s.rb ++ c, rb := [], k := 0, phase := .scan }) ∧
    (s.phase = .scan → ∀ t, exec (.push c) s ≠ .next t) ∧
    (block.chunkMax < c.length → ∀ t, exec (.push c) s ≠ .next t) ∧
    (s.Inv → ∀ t, exec (.push c) s = .next t →
      t.w.length ≤ block.rbMax + block.chunkMax ∧ block.rbMax + block.chunkMax ≤ block.bufCap) ∧
    (s.Inv → s.phase = .idle →
      ∃ t, exec (.extract s.rb []) s = .next t ∧ { t with answer := s.answer } = s)

/-- R161 and R51 (their sentences on the first chunk). From the reset state the first operation may be a
`PUSH`, and the first byte of the first chunk is at the cursor. -/
def Obligations.FirstChunkIsScannedFirst : Prop :=
  ∀ (b : Byte) (c : List Byte), (b :: c).length ≤ block.chunkMax →
    ∃ t, exec (.push (b :: c)) State.reset = .next t ∧ t.phase = .scan ∧ t.w = b :: c ∧ t.k = 0 ∧
      t.syncByte = some [b]

/-- R52. The work buffer never overflows: at every `PUSH` its length is residual plus chunk, within
`RB_MAX + CHUNK_MAX`, within `BUF_CAP`; a longer chunk is no legal input. -/
def Obligations.WorkBufferNeverOverflows : Prop :=
  (∀ (s t : State) (c : List Byte), s.Inv → exec (.push c) s = .next t →
    t.w.length = s.rb.length + c.length ∧
    t.w.length ≤ block.rbMax + block.chunkMax ∧ block.rbMax + block.chunkMax ≤ block.bufCap) ∧
  ∀ (s : State) (c : List Byte), block.chunkMax < c.length → ∀ t, exec (.push c) s ≠ .next t

/-! ### The scan operations: each one's step -/

/-- R107. `END`: in `SCAN` with the cursor at the end of the work buffer, the pass stops; `RB`, `OUT` and
all else stay. -/
def Obligations.EndStopsThePass : Prop :=
  ∀ s : State, s.phase = .scan → s.k = s.w.length →
    exec .endPass s = .next { s with w := [], k := 0, phase := .idle }

/-- R102. `SKIP`: a byte at the cursor other than the sync marker is logged and dropped; nothing else
changes. (The log is optional in R102; keeping it is log entry 7.) -/
def Obligations.SkipDropsOneByte : Prop :=
  ∀ (s : State) (b : Byte) (t : List Byte),
    s.phase = .scan → s.w.drop s.k = b :: t → b ≠ block.sync →
    exec (.skip b) s = .next { s with log := s.log ++ [.skip b], k := s.k + 1 }

/-- R103. `WAITH`: a sync marker with fewer than `HDR_LEN` bytes left becomes the residual, and the pass
stops; `OUT` and all else stay. The stored tail has 1 to 4 bytes. -/
def Obligations.WaithStoresTheTail : Prop :=
  ∀ (s : State) (r : List Byte),
    s.phase = .scan → s.w.drop s.k = r → r.head? = some block.sync → r.length < block.hdrLen →
    exec (.waith r) s = .next { s with rb := r, w := [], k := 0, phase := .idle } ∧
      1 ≤ r.length ∧ r.length ≤ 4

/-- R104. `WAITB`: a complete header with fewer bytes than its length byte declares becomes the residual
whole, and the pass stops; `OUT` and all else stay. The stored tail has 5 to 261 bytes. -/
def Obligations.WaitbStoresTheTail : Prop :=
  ∀ (s : State) (r : List Byte) (len : Byte),
    s.phase = .scan → s.w.drop s.k = r → r.head? = some block.sync → r[4]? = some len →
    r.length < len.toNat + 7 →
    exec (.waitb r) s = .next { s with rb := r, w := [], k := 0, phase := .idle } ∧
      5 ≤ r.length ∧ r.length ≤ 261

/-- R105. `REJECT`: a complete candidate whose stored trailer is not the computed one is logged, and one
byte is dropped, the sync byte; nothing else changes. (The log is optional in R105; keeping it is log
entry 7.) -/
def Obligations.RejectDropsTheSyncByte : Prop :=
  ∀ (s : State) (h t : List Byte) (len sx sa : Byte),
    s.phase = .scan → s.w.drop s.k = h ++ [sx, sa] ++ t →
    h.head? = some block.sync → h[4]? = some len → h.length = len.toNat + 5 →
    trailer block h ≠ (sx, sa) →
    exec (.reject (h ++ [sx, sa])) s =
      .next { s with
        log := s.log ++
          [.reject (len.toNat + 7) (trailer block h).1 (trailer block h).2 sx sa],
        k := s.k + 1 }

/-- R106. `EMIT`: a complete candidate whose trailer matches is appended to `OUT`, the residual is cleared
and the cursor moves past the whole frame; nothing else changes. -/
def Obligations.EmitDeliversTheFrame : Prop :=
  ∀ (s : State) (h t : List Byte) (len x a : Byte),
    s.phase = .scan → s.w.drop s.k = h ++ [x, a] ++ t →
    h.head? = some block.sync → h[4]? = some len → h.length = len.toNat + 5 →
    trailer block h = (x, a) →
    exec (.emit (h ++ [x, a])) s =
      .next { s with out := s.out ++ [⟨h ++ [x, a]⟩], rb := [], k := s.k + (len.toNat + 7) }

/-- R101. In `SCAN` (with the cursor within the work buffer, R32 item 1) exactly one scan operation has a
step, the one R66 selects for the bytes at the cursor; in `IDLE` none has. -/
def Obligations.ExactlyOneScanOperationIsEnabled : Prop :=
  (∀ s : State, s.phase = .scan → s.k ≤ s.w.length →
    ∃ i, decode block (s.w.drop s.k) = .ok i ∧ i.isScan = true ∧ (∃ t, exec i s = .next t) ∧
      ∀ j, j.isScan = true → (∃ t, exec j s = .next t) → j = i) ∧
  ∀ (s : State) (i : Instr), s.phase = .idle → i.isScan = true →
    ∀ t, exec i s ≠ .next t

/-- R142 (the event's content; that events are kept is log entry 7). A `REJECT` records the candidate's
length, its recomputed and its stored trailer, and the two differ. -/
def Obligations.RejectReportsBothTrailers : Prop :=
  ∀ (s t : State) (f : List Byte), exec (.reject f) s = .next t →
    ∃ cx ca sx sa, t.log = s.log ++ [.reject f.length cx ca sx sa] ∧
      (cx, ca) = trailer block (f.take (f.length - 2)) ∧
      f[f.length - 2]? = some sx ∧ f[f.length - 1]? = some sa ∧ (cx ≠ sx ∨ ca ≠ sa)

/-! ### The codec -/

/-- R84. `TRAILER(s)` is the XOR of all bytes and the sum of all bytes and that XOR, modulo 256; of the
empty sequence `(0x00, 0x00)`, of one byte `b` the pair `(b, 2b mod 256)`. -/
def Obligations.TrailerIsXorThenSum : Prop :=
  (∀ s : List Byte,
    (trailer block s).1 = s.foldr (fun b x => b ^^^ x) 0#8 ∧
    (trailer block s).2.toNat =
      ((s.map BitVec.toNat).sum + (s.foldr (fun b x => b ^^^ x) 0#8).toNat) % 256) ∧
  trailer block [] = (0x00#8, 0x00#8) ∧
  ∀ b : Byte, trailer block [b] = (b, BitVec.ofNat 8 (2 * b.toNat % 256))

/-- R85. `VALID(f)` holds exactly when `f` ends in the trailer of the bytes before it; so it is false of a
sequence shorter than two bytes, and tests nothing else. -/
def Obligations.ValidMeansTheTrailerMatches : Prop :=
  (∀ f : List Byte, valid block f = true ↔
    ∃ h x a, f = h ++ [x, a] ∧ trailer block h = (x, a)) ∧
  ∀ f : List Byte, f.length < 2 → valid block f = false

/-- `TRAILER` and `VALID` are defined in every state and change nothing of the block (R80). That the value
they return stands in `answer` is the model's choice (log entry 6). -/
def Obligations.CodecFunctionsAnswerAndChangeNothing : Prop :=
  ∀ (s : State) (bytes : List Byte),
    exec (.trailer bytes) s =
      .next { s with answer := some (.trailer (trailer block bytes).1 (trailer block bytes).2) } ∧
    exec (.valid bytes) s = .next { s with answer := some (.valid (valid block bytes)) }

/-- R83. An 8-bit accumulator that drops its carry gives the same add byte, whatever the order of the
bytes. -/
def Obligations.EightBitAccumulatorSuffices : Prop :=
  ∀ s t : List Byte, t.Perm s → addByteByAccumulator t = (trailer block s).2

/-- R86. The add byte may be checked against the sum that includes the stored checksum byte, and the whole
check may run over the bytes as they arrive. -/
def Obligations.StreamingCheckIsValid : Prop :=
  (∀ (h : List Byte) (x a : Byte), valid block (h ++ [x, a]) = true ↔
    x = xorFold h ∧ a = BitVec.ofNat 8 (sumFold (h ++ [x]) % 256)) ∧
  (∀ (h : List Byte) (x a : Byte), valid block (h ++ [x, a]) = true ↔
    xorFold (h ++ [x]) = 0#8 ∧ BitVec.ofNat 8 (sumFold (h ++ [x]) % 256) = a) ∧
  ∀ f : List Byte, validStreaming block f = valid block f

/-- R87. Changing exactly one byte of a valid sequence, covered or trailer, makes it invalid. -/
def Obligations.SingleByteErrorsAreDetected : Prop :=
  ∀ (f : List Byte) (i : Nat) (b : Byte),
    valid block f = true → i < f.length → f[i]? ≠ some b → valid block (f.set i b) = false

/-- R88. Every byte sequence has exactly one trailer that `VALID` accepts; so `FRAME` always builds a
valid frame. -/
def Obligations.TrailerExistsAndIsUnique : Prop :=
  (∀ (h : List Byte) (x a : Byte), valid block (h ++ [x, a]) = true ↔ (x, a) = trailer block h) ∧
  ∀ (src dst cmd : Byte) (p : List Byte), p.length ≤ 255 →
    isFrame block (buildFrame block src dst cmd p) = true

/-- R89. `VALID` does not see a change of the covered bytes that keeps the XOR and the sum modulo 256: a
permutation, bit 7 set in two bytes that had it clear, one bit position flipped in two bytes of which one
had it set and the other clear. -/
def Obligations.ErrorsTheTrailerMisses : Prop :=
  (∀ (h g : List Byte) (x a : Byte), xorFold h = xorFold g → sumFold h % 256 = sumFold g % 256 →
    valid block (h ++ [x, a]) = valid block (g ++ [x, a])) ∧
  (∀ (h g : List Byte) (x a : Byte), h.Perm g →
    valid block (h ++ [x, a]) = valid block (g ++ [x, a])) ∧
  (∀ (p m q : List Byte) (c d x a : Byte), c.toNat < 128 → d.toNat < 128 →
    valid block (p ++ [c ||| 0x80#8] ++ m ++ [d ||| 0x80#8] ++ q ++ [x, a]) =
      valid block (p ++ [c] ++ m ++ [d] ++ q ++ [x, a])) ∧
  ∀ (p m q : List Byte) (c d x a : Byte) (j : Nat), j < 8 →
    c.getLsbD j = true → d.getLsbD j = false →
    valid block (p ++ [c ^^^ BitVec.twoPow 8 j] ++ m ++ [d ^^^ BitVec.twoPow 8 j] ++ q ++ [x, a]) =
      valid block (p ++ [c] ++ m ++ [d] ++ q ++ [x, a])

/-- R61. The fields of a frame stand at their offsets: any frame is sync marker, source-id, destination
byte, command-id, length byte, payload of that length, checksum byte, add byte, and the last two are
the XOR and the sum modulo 256 of all the bytes before them. -/
def Obligations.FrameFieldsStandAtTheirOffsets : Prop :=
  (∀ f : List Byte, isFrame block f = true → ∃ v, viewFrame block f = some v ∧
    f = [block.sync, v.src, v.dst, v.cmd, v.len] ++ v.payload ++ [v.xor, v.add] ∧
    v.payload.length = v.len.toNat ∧
    v.xor = xorFold ([block.sync, v.src, v.dst, v.cmd, v.len] ++ v.payload) ∧
    v.add = BitVec.ofNat 8
      (sumFold ([block.sync, v.src, v.dst, v.cmd, v.len] ++ v.payload ++ [v.xor]) % 256)) ∧
  ∀ (src dst cmd : Byte) (p : List Byte), p.length ≤ 255 → ∃ x a,
    viewFrame block (buildFrame block src dst cmd p) =
      some { src, dst, cmd, len := BitVec.ofNat 8 p.length, payload := p, xor := x, add := a }

/-! ### Decode and encode -/

/-- R66. The decode table, row by row, under every well-formed configuration: each row's operation is
decoded exactly where its condition holds, and some row always holds. -/
def Obligations.DecodeTableRowByRow : Prop :=
  ∀ (cfg : Config) (r : List Byte), cfg.WellFormed →
    (decode cfg r = .ok .endPass ↔ r = []) ∧
    (∀ b, decode cfg r = .ok (.skip b) ↔ r.head? = some b ∧ b ≠ cfg.sync) ∧
    (∀ x, decode cfg r = .ok (.waith x) ↔
      x = r ∧ r.head? = some cfg.sync ∧ r.length < cfg.hdrLen) ∧
    (∀ x, decode cfg r = .ok (.waitb x) ↔
      x = r ∧ r.head? = some cfg.sync ∧ cfg.hdrLen ≤ r.length ∧
        ∃ len, r[cfg.lenOff]? = some len ∧ r.length < cfg.hdrLen + len.toNat + cfg.trlLen) ∧
    (∀ x, decode cfg r = .ok (.reject x) ↔
      r.head? = some cfg.sync ∧ cfg.hdrLen ≤ r.length ∧
        ∃ len, r[cfg.lenOff]? = some len ∧ cfg.hdrLen + len.toNat + cfg.trlLen ≤ r.length ∧
          x = r.take (cfg.hdrLen + len.toNat + cfg.trlLen) ∧ valid cfg x = false) ∧
    (∀ x, decode cfg r = .ok (.emit x) ↔
      r.head? = some cfg.sync ∧ cfg.hdrLen ≤ r.length ∧
        ∃ len, r[cfg.lenOff]? = some len ∧ cfg.hdrLen + len.toNat + cfg.trlLen ≤ r.length ∧
          x = r.take (cfg.hdrLen + len.toNat + cfg.trlLen) ∧ valid cfg x = true) ∧
    ∃ i, decode cfg r = .ok i ∧ i.isScan = true

/-- Decode and encode agree: every well-formed scan operation, with every byte its encoding admits, is
decoded from its own bytes; one that goes on with the pass, whatever bytes follow. (That a scan operation
carries its bytes is log entry 9.) -/
def Obligations.DecodeOfEncodeIsTheOperation : Prop :=
  ∀ (cfg : Config) (i : Instr), cfg.WellFormed → i.isScan = true → i.wf cfg = true →
    ∃ bs, encode i = some bs ∧ decode cfg bs = .ok i ∧
      (i.continuesPass = true → ∀ t, decode cfg (bs ++ t) = .ok i)

/-- The other direction: what is decoded is well formed and its bytes open the bytes decoded; an operation
that stops the pass takes all of them. -/
def Obligations.EncodeOfDecodeIsAPrefix : Prop :=
  ∀ (cfg : Config) (r : List Byte) (i : Instr), cfg.WellFormed → decode cfg r = .ok i →
    i.isScan = true ∧ i.wf cfg = true ∧
      ∃ bs t, encode i = some bs ∧ r = bs ++ t ∧ (i.continuesPass = false → t = [])

/-- Decoding is right on words written out from R61 and R66: a noise byte, a lone sync byte, a header one
byte short, a complete header, the shortest frame, and the same with its add byte off by one. -/
def Obligations.WrittenOutWordsDecodeRight : Prop :=
  decode block [0x5A#8, 0xF7#8] = .ok (.skip 0x5A#8) ∧
  decode block [0xF7#8] = .ok (.waith [0xF7#8]) ∧
  decode block [0xF7#8, 0x01#8, 0x02#8, 0x03#8] =
    .ok (.waith [0xF7#8, 0x01#8, 0x02#8, 0x03#8]) ∧
  decode block [0xF7#8, 0x36#8, 0x1F#8, 0x81#8, 0x00#8] =
    .ok (.waitb [0xF7#8, 0x36#8, 0x1F#8, 0x81#8, 0x00#8]) ∧
  decode block [0xF7#8, 0x36#8, 0x1F#8, 0x81#8, 0x00#8, 0x5F#8, 0x2C#8] =
    .ok (.emit [0xF7#8, 0x36#8, 0x1F#8, 0x81#8, 0x00#8, 0x5F#8, 0x2C#8]) ∧
  decode block [0xF7#8, 0x36#8, 0x1F#8, 0x81#8, 0x00#8, 0x5F#8, 0x2D#8] =
    .ok (.reject [0xF7#8, 0x36#8, 0x1F#8, 0x81#8, 0x00#8, 0x5F#8, 0x2D#8])

/-- The hex text of any bytes is read back as those bytes, and text that is read has two characters a byte
(R71, R72; the digits' order and case are PRESUMED, log entry 16). -/
def Obligations.HexTextRoundTrip : Prop :=
  (∀ bs : List Byte, hexToBytes (bytesToHex bs) = .ok bs) ∧
  ∀ (cs : List Char) (bs : List Byte), hexToBytes cs = .ok bs → cs.length = 2 * bs.length

/-- The written form of a host operation is read back as that operation (R73; the spacing is the model's
choice, log entry 17). -/
def Obligations.WrittenHostLinesReadBack : Prop :=
  ∀ (i : Instr) (line : List Char), writeHostLine i = some line → parseHostLine line = .ok i

/-! ### One step and whole runs -/

/-- A step runs the decoded operation: in `SCAN`, where the host asks no reset, the step is the meaning of
the operation decoded at the cursor; the host's script loses at most a `gap` at its head (log entry 4). -/
def Obligations.StepRunsTheDecodedOperation : Prop :=
  ∀ (s : State) (i : Instr), s.phase = .scan → s.host.head? ≠ some .reset → s.k ≤ s.w.length →
    decode block (s.w.drop s.k) = .ok i → step s = exec i { s with host := afterGap s.host }

/-- How a step serves the host (the model's script, log entries 4 and 5): a reset in either phase, a chunk
in `IDLE`, a wait in `IDLE`; a chunk presented in `SCAN` is held while the pass goes on. -/
def Obligations.StepServesTheHost : Prop :=
  (∀ (s : State) (h : List HostAct), s.host = .reset :: h →
    step s = .next { s with phase := .idle, rb := [], w := [], k := 0, host := h }) ∧
  (∀ (s : State) (c : List Byte) (h : List HostAct), s.phase = .idle → s.host = .push c :: h →
    c.length ≤ block.chunkMax →
    step s = .next { s with w := s.rb ++ c, rb := [], k := 0, phase := .scan, host := h }) ∧
  (∀ (s : State) (h : List HostAct), s.phase = .idle → s.host = .gap :: h →
    step s = .next { s with host := h }) ∧
  (∀ s : State, s.phase = .idle → s.host = [] → step s = .next s) ∧
  ∀ (s t : State) (c : List Byte) (h : List HostAct), s.phase = .scan → s.host = .push c :: h →
    step s = .next t → t.host = s.host

/-- Placing a word where the extractor scans makes the very next step run what it decodes to (log entry
11). -/
def Obligations.FetchedWordRunsNext : Prop :=
  ∀ (s : State) (nbits w : Nat) (i : Instr), decodeTableWord nbits w = some i →
    step (s.withFetchWord nbits w) = exec i (s.withFetchWord nbits w)

/-- An idle block does nothing however long the host waits, and a residual has no timeout (R151, R155,
R166; the script is log entry 4, and that an idle step with an empty script answers the same state is log
entry 5). -/
def Obligations.ResidualWaitsWithoutTimeout : Prop :=
  ∀ (s : State) (n : Nat) (h : List HostAct), s.phase = .idle →
    (s.host = List.replicate n .gap ++ h →
      run n s = .next { s with host := h }) ∧
    (s.host = [] → run n s = .next s)

/-- R108. A scan operation that stays in the pass moves the cursor forward, `SKIP` and `REJECT` by 1 and
`EMIT` by the candidate's length, in natural numbers, to at most `|W|`, within `BUF_CAP`; the work buffer
stays. -/
def Obligations.CursorMovesForwardWithinTheBuffer : Prop :=
  ∀ (s t : State) (i : Instr), s.Inv → i.isScan = true → exec i s = .next t → t.phase = .scan →
    s.k < t.k ∧ t.k ≤ t.w.length ∧ t.w = s.w ∧ t.w.length ≤ block.bufCap ∧
    (∀ f, i = .emit f → t.k = s.k + f.length) ∧ ((∀ f, i ≠ .emit f) → t.k = s.k + 1)

/-- R109. `SKIP`, `REJECT` and `EMIT` each move the cursor forward within the work buffer, the other three
end the pass, and so a pass takes at most `|W| - K + 1` scan operations, of which only the last stops. -/
def Obligations.EveryPassEnds : Prop :=
  (∀ (s t : State) (i : Instr), i.continuesPass = true → exec i s = .next t →
    t.phase = .scan ∧ s.k + 1 ≤ t.k ∧ t.k ≤ t.w.length ∧ t.w = s.w) ∧
  (∀ (s t : State) (i : Instr), i.isScan = true → i.continuesPass = false → exec i s = .next t →
    t.phase = .idle) ∧
  ∀ s : State, s.phase = .scan → s.k ≤ s.w.length → s.host = [] →
    ∃ n t, 1 ≤ n ∧ n ≤ s.w.length - s.k + 1 ∧ run n s = .next t ∧
      t.phase = .idle ∧
      ∀ m, m < n → ∃ u, run m s = .next u ∧ u.phase = .scan

/-- R110. The machine's pass is the function: `PUSH(c)` in an idle state and then scan operations until
`IDLE` again reach exactly the idle state whose residual and output are those of `EXTRACT(rb, c)`, within
`|rb| + |c| + 2` steps, and the machine rests there. (The script that pushes the chunk is log entry 4; that
an idle step with an empty script answers the same state, log entry 5.) -/
def Obligations.MachinePassIsExtract : Prop :=
  ∀ (s : State) (c : List Byte), s.phase = .idle → s.host = [.push c] →
    c.length ≤ block.chunkMax →
    ∃ es, ∀ n, s.rb.length + c.length + 2 ≤ n →
      run n s =
        .next { s.afterPass (extract block s.rb c).1 es (extract block s.rb c).2 with host := [] }

/-- The composite `EXTRACT(rb, c)` as one operation, in an idle state whose residual is `rb` (R74, R110; one
operation of the model, log entry 10; the pair it returns stands in `answer`, log entry 6). -/
def Obligations.ExtractOperationIsTheFunction : Prop :=
  ∀ (s : State) (c : List Byte), s.phase = .idle → c.length ≤ block.chunkMax →
    ∃ es, exec (.extract s.rb c) s =
      .next { s.afterPass (extract block s.rb c).1 es (extract block s.rb c).2 with
        answer := some (.extract (extract block s.rb c).1 (extract block s.rb c).2) }

/-- R111. `scan` looks only forward. -/
def Obligations.ScanLooksOnlyForward : Prop :=
  ∀ (cfg : Config) (w : List Byte) (k : Nat), cfg.WellFormed → k ≤ w.length →
    scan cfg w k = scan cfg (w.drop k) 0

/-- R112. Where the decode selects `SKIP`, `REJECT` or `EMIT`, it selects the same operation in every
extension of the work buffer; where it selects `WAITH`, `WAITB` or `END`, the extension is scanned from
the byte at which the shorter scan stopped. -/
def Obligations.PrefixStability : Prop :=
  ∀ (cfg : Config) (w t : List Byte) (k : Nat) (i : Instr), cfg.WellFormed → k ≤ w.length →
    decode cfg (w.drop k) = .ok i →
    (i.continuesPass = true → decode cfg ((w ++ t).drop k) = .ok i) ∧
    (i.continuesPass = false → scan cfg (w ++ t) k = scan cfg (w.drop k ++ t) 0)

/-- R115. Read-boundary independence: for every residual and any two sequences, and so for any cutting of a
stream into chunks, empty ones included, frames and final residual are those of one chunk. -/
def Obligations.ReadBoundaryIndependence : Prop :=
  (∀ (cfg : Config) (r s t : List Byte), cfg.WellFormed →
    extract cfg r (s ++ t) =
      ((extract cfg r s).1 ++ (extract cfg (extract cfg r s).2 t).1,
        (extract cfg (extract cfg r s).2 t).2)) ∧
  ∀ (cfg : Config) (r c : List Byte) (cs : List (List Byte)), cfg.WellFormed →
    extractAll cfg r (c :: cs) = extract cfg r (c :: cs).flatten

/-- R113. After every pass the residual is at most `RB_MAX` bytes: `WAITH` stores at most 4, `WAITB` fewer
than the frame it waits for, so at most 261, `END` leaves 0. -/
def Obligations.ResidualIsBounded : Prop :=
  (∀ (s t : State) (rb c : List Byte), exec (.extract rb c) s = .next t →
    t.rb.length ≤ block.rbMax) ∧
  (∀ (s t : State) (r : List Byte), exec (.waith r) s = .next t → t.rb.length ≤ block.hdrLen - 1) ∧
  (∀ (s t : State) (r : List Byte), exec (.waitb r) s = .next t →
    ∃ n, declaredLen block t.rb = some n ∧ t.rb.length < n ∧ n ≤ block.maxFrame) ∧
  (∀ s t : State, s.Inv → exec .endPass s = .next t → t.rb = []) ∧
  block.rbMax = 261 ∧ block.maxFrame = 262

/-- R114. A residual opens with the sync marker and the candidate at its head is incomplete; yet it may hold
a whole frame further on. -/
def Obligations.ResidualHeadIsIncomplete : Prop :=
  (∀ (cfg : Config) (rb c : List Byte), cfg.WellFormed → (extract cfg rb c).2 ≠ [] →
    (extract cfg rb c).2.head? = some cfg.sync ∧
    ((extract cfg rb c).2.length < cfg.hdrLen ∨
      ∃ n, declaredLen cfg (extract cfg rb c).2 = some n ∧ (extract cfg rb c).2.length < n)) ∧
  ∃ c p f q, extract block [] c = ([], p ++ f ++ q) ∧ p ≠ [] ∧ isFrame block f = true

/-- R116. A sync byte inside a frame does no harm once the scan is at the frame's first byte: the operation
is `EMIT` and the cursor moves past the whole frame; a part of the frame waits from its first byte, and the
frame is emitted when the rest arrives. -/
def Obligations.SyncByteInsideAFrameDoesNoHarm : Prop :=
  (∀ (s : State) (f t : List Byte), isFrame block f = true → s.phase = .scan →
    s.w.drop s.k = f ++ t → ∃ u, exec (.emit f) s = .next u ∧ u.k = s.k + f.length ∧
      u.out = s.out ++ [⟨f⟩] ∧ u.w = s.w ∧ u.phase = .scan) ∧
  ∀ (cfg : Config) (f : List Byte), cfg.WellFormed → isFrame cfg f = true →
    (∀ t, decode cfg (f ++ t) = .ok (.emit f)) ∧
    ∀ p q, f = p ++ q → p ≠ [] → q ≠ [] →
      (decode cfg p = .ok (.waith p) ∨ decode cfg p = .ok (.waitb p)) ∧
      ∀ t, extract cfg (extract cfg [] p).2 (q ++ t) =
        (⟨f⟩ :: (extract cfg [] t).1, (extract cfg [] t).2)

/-- A case of R118 (section 5 of `41_frame_extractor.md`): noise with no sync byte before a frame is
dropped, the frame is emitted, and the scan goes on after it. -/
def Obligations.NoiseBeforeAFrameIsDropped : Prop :=
  ∀ (cfg : Config) (noise f t : List Byte), cfg.WellFormed → (∀ b ∈ noise, b ≠ cfg.sync) →
    isFrame cfg f = true →
    scan cfg (noise ++ f ++ t) 0 = (⟨f⟩ :: (scan cfg t 0).1, (scan cfg t 0).2)

/-- R118. Recovery after noise: where no operation selected before a frame `f` waits, and none emits a slice
that reaches into `f`, the cursor comes to the first byte of `f`, all before it is dropped or lies in earlier
frames, `f` is emitted, and the scan goes on after it. -/
def Obligations.RecoveryAfterNoise : Prop :=
  ∀ (cfg : Config) (p f t : List Byte), cfg.WellFormed → isFrame cfg f = true →
    (∀ k ∈ visited cfg (p ++ f ++ t), k < p.length →
      ∃ i, decode cfg ((p ++ f ++ t).drop k) = .ok i ∧ i.continuesPass = true ∧
        ∀ g, i = .emit g → k + g.length ≤ p.length) →
    p.length ∈ visited cfg (p ++ f ++ t) ∧
    ∃ gaps fs, p = weave gaps fs ∧
      scan cfg (p ++ f ++ t) 0 = (fs ++ ⟨f⟩ :: (scan cfg t 0).1, (scan cfg t 0).2)

/-- R117 on the machine: a clean stream, however it is chunked, is emitted frame by frame, with an empty
residual and nothing dropped. (That nothing is dropped is read from `LOG`, kept by log entry 7; the
chunks stand in the host's script, log entry 4.) -/
def Obligations.CleanStreamIsExtractedExactly : Prop :=
  ∀ (s : State) (fs cs : List (List Byte)), s.Inv → s.phase = .idle → s.rb = [] →
    (∀ f ∈ fs, isFrame block f = true) → (∀ c ∈ cs, c.length ≤ block.chunkMax) →
    cs.flatten = fs.flatten → s.host = cs.map HostAct.push →
    ∃ n t, run n s = .next t ∧ t.Quiescent ∧ t.rb = [] ∧
      t.out = s.out ++ fs.map Frame.mk ∧ t.log = s.log

/-- R53. The frames emitted since a reset are disjoint slices of the stream, in the order of their starting
positions, whatever the chunking. -/
def Obligations.FramesAreDisjointSlicesInOrder : Prop :=
  ∀ (cfg : Config) (cs : List (List Byte)), cfg.WellFormed →
    (∃ gaps, cs.flatten = weave gaps (extractAll cfg [] cs).1 ++ (extractAll cfg [] cs).2) ∧
    ∀ f ∈ (extractAll cfg [] cs).1, isFrame cfg f.raw = true

/-! ### Invariants, frames, accounts -/

/-- R32 at reset: the invariants hold of the reset state. -/
def Obligations.InvariantHoldsAtReset : Prop := State.reset.Inv

/-- Every step keeps the invariants of R32 (section 4 of `10_state.md`): in particular the buffers keep
their form and every element of `OUT` is a frame. -/
def Obligations.EveryStepKeepsTheInvariant : Prop :=
  ∀ s t : State, s.Inv → step s = .next t → t.Inv

/-- R32. The invariants hold at reset and every operation of R9 keeps them. -/
def Obligations.EveryOperationKeepsTheInvariant : Prop :=
  State.reset.Inv ∧ ∀ (i : Instr) (s t : State), s.Inv → exec i s = .next t → t.Inv

/-- R140. No condition is fatal: from every state that meets the invariants, with a host that keeps to
`CHUNK_MAX` (R135), a run of any length goes on, and its state meets the invariants. (The host's script is
log entry 4; that a run goes on in `IDLE` with an empty script, log entry 5.) -/
def Obligations.NoConditionIsFatal : Prop :=
  ∀ s : State, s.Inv → s.HostWithinLimit → ∀ n, ∃ t,
    run n s = .next t ∧ t.Inv ∧ t.HostWithinLimit

/-- R25. `OUT` only grows; only `EMIT` appends to it (or the composite `EXTRACT`, made of scan operations);
`RESET` does not change it. -/
def Obligations.OutputOnlyGrowsByEmit : Prop :=
  ∀ (i : Instr) (s t : State), exec i s = .next t →
    ∃ fs, t.out = s.out ++ fs ∧
      (∀ f, i = .emit f → fs = [⟨f⟩]) ∧
      ((∀ f, i ≠ .emit f) → (∀ rb c, i ≠ .extract rb c) → fs = [])

/-- How each operation moves `PHASE` (R24). -/
def Obligations.PhaseMovesAsTheSpecSays : Prop :=
  ∀ (i : Instr) (s t : State), exec i s = .next t →
    (∀ c, i = .push c → s.phase = .idle ∧ t.phase = .scan) ∧
    (i.isScan = true → s.phase = .scan) ∧
    (i.isScan = true → i.continuesPass = true → t.phase = .scan) ∧
    (i.isScan = true → i.continuesPass = false → t.phase = .idle) ∧
    (i = .reset → t.phase = .idle) ∧
    (∀ x, i = .trailer x ∨ i = .valid x → t.phase = s.phase) ∧
    ∀ rb c, i = .extract rb c → s.phase = .idle ∧ t.phase = .idle

/-- How each operation changes the cursor (R23, R119): `SKIP` and `REJECT` add 1, `EMIT` adds the candidate's
length, 7 to 262; every other scan operation, `PUSH`, `RESET` and a whole pass leave 0. -/
def Obligations.CursorChangesInOneWay : Prop :=
  ∀ (i : Instr) (s t : State), exec i s = .next t →
    ((∃ b, i = .skip b) ∨ (∃ f, i = .reject f) → t.k = s.k + 1) ∧
    (∀ f, i = .emit f → t.k = s.k + f.length ∧ 7 ≤ f.length ∧ f.length ≤ 262) ∧
    (i = .endPass ∨ (∃ r, i = .waith r) ∨ (∃ r, i = .waitb r) ∨ (∃ c, i = .push c) ∨ i = .reset ∨
      (∃ rb c, i = .extract rb c) → t.k = 0) ∧
    ∀ x, i = .trailer x ∨ i = .valid x → t.k = s.k

/-- How the scan operations and `PUSH` write the work buffer (R22): a scan operation that goes on with the
pass leaves it as it was, one that stops the pass empties it, `PUSH` makes it the residual followed by the
chunk. How the operations other than the composite `EXTRACT` write the residual (R21): `WAITH` and `WAITB`
with the tail of the work buffer, `PUSH`, `EMIT` and `RESET` with nothing in it; `END`, `SKIP`, `REJECT`,
`TRAILER` and `VALID` leave it. (For the work buffer under `TRAILER` and `VALID` see
CodecFunctionsAnswerAndChangeNothing, under `RESET` ResetClearsInEitherPhase; for both buffers under
`EXTRACT` see ExtractOperationIsTheFunction.) -/
def Obligations.BuffersAreWrittenWhole : Prop :=
  ∀ (i : Instr) (s t : State), exec i s = .next t →
    (i.isScan = true → i.continuesPass = true → t.w = s.w) ∧
    (i.isScan = true → i.continuesPass = false → t.w = []) ∧
    (∀ c, i = .push c → t.w = s.rb ++ c ∧ t.rb = []) ∧
    (∀ r, i = .waith r ∨ i = .waitb r → t.rb = s.w.drop s.k) ∧
    ((∃ f, i = .emit f) ∨ i = .reset → t.rb = []) ∧
    (i = .endPass ∨ (∃ b, i = .skip b) ∨ (∃ f, i = .reject f) ∨
      (∃ x, i = .trailer x ∨ i = .valid x) → t.rb = s.rb)

/-- Every read a scan operation makes lies inside the work buffer and gives the bytes it is decoded from
(R45, R120): the sync byte, the length byte, the slice or tail. -/
def Obligations.EveryReadIsInsideTheBuffer : Prop :=
  ∀ (s : State) (i : Instr) (bs : List Byte), s.selected = .ok i → encode i = some bs → bs ≠ [] →
    s.k + bs.length ≤ s.w.length ∧ memRead s.w s.k bs.length = some bs ∧
    s.syncByte = some (bs.take 1) ∧
    (block.hdrLen ≤ bs.length → ∃ len, bs[block.lenOff]? = some len ∧ s.lengthByte = some [len])

/-- Conservation of bytes (R54): a scan operation takes from the held bytes exactly what it drops or emits,
and over every operation but `RESET` the bytes emitted, dropped and held grow by the bytes pushed. (The
dropped bytes are counted in `LOG`, kept by log entry 7.) -/
def Obligations.EveryByteIsAccountedFor : Prop :=
  (∀ (i : Instr) (s t : State), s.Inv → i.isScan = true → exec i s = .next t →
    ∃ taken, s.held = taken ++ t.held ∧
      ((∃ b, i = .skip b ∧ taken = [b] ∧ b ≠ block.sync) ∨
        (∃ f, i = .reject f ∧ taken = [block.sync]) ∨
        (∃ f, i = .emit f ∧ taken = f) ∨
        (i.continuesPass = false ∧ taken = []))) ∧
  ∀ (i : Instr) (s t : State), s.Inv → exec i s = .next t →
    ((∀ c, i ≠ .push c) → (∀ rb c, i ≠ .extract rb c) → i ≠ .reset →
      t.accounted = s.accounted) ∧
    ∀ c, (i = .push c ∨ ∃ rb, i = .extract rb c) → t.accounted = s.accounted + c.length

/-- The physical realisation of R35, one byte memory with a fill count and the cursor, realises both
buffers: some such memory realises the reset state, and each atomic operation on it realises that
operation. (What it does at `RESET` is DEDUCED, log entry 21.) -/
def Obligations.OneMemoryRealisesBothBuffers : Prop :=
  (∃ b : Buffer, b.Realises State.reset) ∧
  ∀ (b : Buffer) (s t : State) (i : Instr), s.Inv → b.Realises s → (∀ rb c, i ≠ .extract rb c) →
    exec i s = .next t → (b.apply i).Realises t
end

