-- ==== Sys2Proof/Laws/Config.lean ====
section
/-! SUPPORT. The block's parameter values, and that the block's configuration is well formed. -/

namespace Sys2Proof

theorem block_sync : block.sync = 0xF7#8 := rfl
theorem block_hdrLen : block.hdrLen = 5 := rfl
theorem block_trlLen : block.trlLen = 2 := rfl
theorem block_lenOff : block.lenOff = 4 := rfl
theorem block_modulus : block.modulus = 256 := rfl
theorem block_minFrame : block.minFrame = 7 := rfl
theorem block_maxFrame : block.maxFrame = 262 := rfl
theorem block_rbMax : block.rbMax = 261 := rfl
theorem block_bufCap : block.bufCap = 261 + block.chunkMax := rfl

theorem block_chunkMax_pos : 1 ≤ block.chunkMax := Nat.le_add_left 1 _

theorem totalLen_block (len : Byte) : block.totalLen len = len.toNat + 7 := by
  simp only [Config.totalLen, block_hdrLen, block_trlLen]; omega

/-- The block's configuration satisfies R8. -/
theorem block_wellFormed : block.WellFormed where
  header := by decide
  lengthByte := by decide
  trailer := rfl
  modulus := rfl
  chunk := block_chunkMax_pos
  capacity := Nat.le_refl _

/-- A configuration is refused exactly when R8 does not hold of it. -/
theorem Config.refusal_eq_none_iff (cfg : Config) : cfg.refusal = none ↔ cfg.WellFormed := by
  unfold Config.refusal
  constructor
  · intro h
    split at h <;> try contradiction
    split at h <;> try contradiction
    split at h <;> try contradiction
    split at h <;> try contradiction
    split at h <;> try contradiction
    split at h <;> try contradiction
    constructor <;> omega
  · rintro ⟨h₁, h₂, h₃, h₄, h₅, h₆⟩
    rw [if_neg (by omega), if_neg (by omega), if_neg (by simp [h₃]), if_neg (by simp [h₄]),
      if_neg (by omega), if_neg (by omega)]

/-- Every total length is at most `MAX_FRAME` (R64). -/
theorem Config.totalLen_le (cfg : Config) (len : Byte) : cfg.totalLen len ≤ cfg.maxFrame := by
  have := len.isLt
  simp only [Config.totalLen, Config.maxFrame, longestFrame, maxLen]; omega

end Sys2Proof
end

