-- ==== Sys2Proof/Laws/Codec.lean ====
section
/-! SUPPORT. The codec's small lemmas: folds over appended sequences, and the trailer of a sequence split
into covered bytes and trailer. -/

namespace Sys2Proof

theorem foldl_xor_from (x : Byte) (s : List Byte) :
    s.foldl (fun x b => x ^^^ b) x = x ^^^ xorFold s := by
  induction s generalizing x with
  | nil => exact (BitVec.xor_zero).symm
  | cons b s ih =>
    change List.foldl _ (x ^^^ b) s = x ^^^ List.foldl _ (0#8 ^^^ b) s
    rw [ih, ih (0#8 ^^^ b), BitVec.zero_xor, BitVec.xor_assoc]

theorem foldl_sum_from (t : Nat) (s : List Byte) :
    s.foldl (fun t b => t + b.toNat) t = t + sumFold s := by
  induction s generalizing t with
  | nil => rfl
  | cons b s ih =>
    change List.foldl _ (t + b.toNat) s = t + List.foldl _ (0 + b.toNat) s
    rw [ih, ih (0 + b.toNat)]; omega

@[simp] theorem xorFold_nil : xorFold [] = 0#8 := rfl
@[simp] theorem sumFold_nil : sumFold [] = 0 := rfl

theorem xorFold_cons (b : Byte) (s : List Byte) : xorFold (b :: s) = b ^^^ xorFold s := by
  change List.foldl _ (0#8 ^^^ b) s = _
  rw [foldl_xor_from, BitVec.zero_xor]

theorem sumFold_cons (b : Byte) (s : List Byte) : sumFold (b :: s) = b.toNat + sumFold s := by
  change List.foldl _ (0 + b.toNat) s = _
  rw [foldl_sum_from]; omega

theorem xorFold_append (s t : List Byte) : xorFold (s ++ t) = xorFold s ^^^ xorFold t := by
  rw [xorFold, List.foldl_append, foldl_xor_from]; rfl

theorem sumFold_append (s t : List Byte) : sumFold (s ++ t) = sumFold s + sumFold t := by
  rw [sumFold, List.foldl_append, foldl_sum_from]; rfl

/-- A sequence that ends in a two-byte trailer stores that trailer. -/
theorem storedTrailer_append (cfg : Config) (htl : cfg.trlLen = 2) (h : List Byte) (x a : Byte) :
    storedTrailer cfg (h ++ [x, a]) = some (x, a) := by
  simp [storedTrailer, htl]

/-- … and the bytes before it are the covered ones. -/
theorem covered_append (cfg : Config) (htl : cfg.trlLen = 2) (h : List Byte) (x a : Byte) :
    covered cfg (h ++ [x, a]) = h := by
  simp [covered, htl]

/-- A sequence of at least two bytes is its covered bytes and its trailer. -/
theorem exists_trailer_split (f : List Byte) (hf : 2 ≤ f.length) :
    ∃ h x a, f = h ++ [x, a] := by
  obtain ⟨g, a, rfl⟩ : ∃ g a, f = g ++ [a] :=
    ⟨f.dropLast, f.getLast (by rintro rfl; simp at hf), (List.dropLast_append_getLast _).symm⟩
  obtain ⟨h, x, rfl⟩ : ∃ h x, g = h ++ [x] :=
    ⟨g.dropLast, g.getLast (by rintro rfl; simp at hf), (List.dropLast_append_getLast _).symm⟩
  exact ⟨h, x, a, by simp⟩

/-- What a candidate is: it opens with the sync marker and its length byte declares its length. -/
theorem isCandidate_iff (cfg : Config) (f : List Byte) :
    isCandidate cfg f = true ↔ f.head? = some cfg.sync ∧ declaredLen cfg f = some f.length := by
  simp [isCandidate]

theorem isFrame_iff (cfg : Config) (f : List Byte) :
    isFrame cfg f = true ↔
      f.head? = some cfg.sync ∧ declaredLen cfg f = some f.length ∧ valid cfg f = true := by
  simp [isFrame, isCandidate, and_assoc]

theorem declaredLen_eq_some_iff (cfg : Config) (f : List Byte) (n : Nat) :
    declaredLen cfg f = some n ↔ ∃ len, f[cfg.lenOff]? = some len ∧ cfg.totalLen len = n := by
  simp [declaredLen]

/-- The declared length does not depend on what follows the header. -/
theorem declaredLen_append (cfg : Config) (f t : List Byte) (n : Nat)
    (h : declaredLen cfg f = some n) : declaredLen cfg (f ++ t) = some n := by
  obtain ⟨len, hl, hn⟩ := (declaredLen_eq_some_iff cfg f n).1 h
  have hlt : cfg.lenOff < f.length := (List.getElem?_eq_some_iff.1 hl).1
  exact (declaredLen_eq_some_iff cfg _ n).2 ⟨len, by rw [List.getElem?_append_left hlt, hl], hn⟩

theorem declaredLen_take (cfg : Config) (r : List Byte) (t n : Nat) (ht : cfg.lenOff < t)
    (h : declaredLen cfg r = some n) : declaredLen cfg (r.take t) = some n := by
  obtain ⟨len, hl, hn⟩ := (declaredLen_eq_some_iff cfg r n).1 h
  exact (declaredLen_eq_some_iff cfg _ n).2
    ⟨len, by rw [List.getElem?_take_of_lt ht, hl], hn⟩

theorem lenOff_lt_declaredLen (cfg : Config) (hw : cfg.WellFormed) (f : List Byte) (n : Nat)
    (h : declaredLen cfg f = some n) : cfg.lenOff < n ∧ cfg.hdrLen + 2 ≤ n ∧ n ≤ cfg.maxFrame := by
  obtain ⟨len, -, rfl⟩ := (declaredLen_eq_some_iff cfg f n).1 h
  refine ⟨?_, ?_, cfg.totalLen_le len⟩ <;>
  · have := hw.lengthByte; have := hw.trailer
    simp only [Config.totalLen]; omega

theorem exists_declaredLen (cfg : Config) (hw : cfg.WellFormed) (r : List Byte)
    (h : cfg.hdrLen ≤ r.length) : ∃ n, declaredLen cfg r = some n := by
  have hlt : cfg.lenOff < r.length := lt_of_lt_of_le hw.lengthByte h
  exact ⟨_, (declaredLen_eq_some_iff cfg r _).2 ⟨r[cfg.lenOff], List.getElem?_eq_getElem hlt, rfl⟩⟩

/-- `FRAME` under the block's configuration, written out (R61, R74). -/
theorem buildFrame_block (src dst cmd : Byte) (p : List Byte) :
    buildFrame block src dst cmd p =
      ([block.sync, src, dst, cmd, BitVec.ofNat 8 p.length] ++ p) ++
        [(trailer block ([block.sync, src, dst, cmd, BitVec.ofNat 8 p.length] ++ p)).1,
          (trailer block ([block.sync, src, dst, cmd, BitVec.ofNat 8 p.length] ++ p)).2] := rfl

/-- The views under the block's configuration: the five header bytes, the payload where it has the length
declared, and the trailer (R61). -/
theorem viewFrame_block (m src dst cmd len : Byte) (p : List Byte) (x a : Byte) :
    viewFrame block ((m :: src :: dst :: cmd :: len :: p) ++ [x, a]) =
      if p.length = len.toNat then some { src, dst, cmd, len, payload := p, xor := x, add := a }
      else none := by
  unfold viewFrame payloadOf
  rw [storedTrailer_append block rfl, covered_append block rfl]
  have hl : ((m :: src :: dst :: cmd :: len :: p) ++ [x, a]).length = block.totalLen len ↔
      p.length = len.toNat := by
    rw [Config.totalLen]
    simp only [List.length_append, List.length_cons, List.length_nil, show block.hdrLen = 5 from rfl,
      show block.trlLen = 2 from rfl]
    omega
  exact if_congr hl rfl rfl

end Sys2Proof
end

