-- ==== Sys2Proof/Laws/Decode.lean ====
section
/-! SUPPORT. What the decode can answer, once. -/

namespace Sys2Proof

/-- The decode's answers: which operation, and what held of the bytes (R66). -/
inductive DecodesTo (cfg : Config) (r : List Byte) : Instr → Prop
  | endPass (h : r = []) : DecodesTo cfg r .endPass
  | skip (b : Byte) (t : List Byte) (h : r = b :: t) (hb : b ≠ cfg.sync) : DecodesTo cfg r (.skip b)
  | waith (h : r.head? = some cfg.sync) (hn : r.length < cfg.hdrLen) : DecodesTo cfg r (.waith r)
  | waitb (n : Nat) (h : r.head? = some cfg.sync) (hh : cfg.hdrLen ≤ r.length)
      (hd : declaredLen cfg r = some n) (hn : r.length < n) : DecodesTo cfg r (.waitb r)
  | reject (n : Nat) (h : r.head? = some cfg.sync) (hh : cfg.hdrLen ≤ r.length)
      (hd : declaredLen cfg r = some n) (hn : n ≤ r.length) (hv : valid cfg (r.take n) = false) :
      DecodesTo cfg r (.reject (r.take n))
  | emit (n : Nat) (h : r.head? = some cfg.sync) (hh : cfg.hdrLen ≤ r.length)
      (hd : declaredLen cfg r = some n) (hn : n ≤ r.length) (hv : valid cfg (r.take n) = true) :
      DecodesTo cfg r (.emit (r.take n))

/-- If the decode answers, one of the six rows held. -/
theorem decode_cases (cfg : Config) (r : List Byte) (i : Instr) (h : decode cfg r = .ok i) :
    DecodesTo cfg r i := by
  unfold decode at h
  match r, h with
  | [], h => cases h; exact .endPass rfl
  | b :: t, h =>
    dsimp only at h
    split at h
    · rename_i hb; cases h; exact .skip b t rfl hb
    · rename_i hb
      have hb : b = cfg.sync := not_not.1 hb
      have hd : (b :: t).head? = some cfg.sync := by simp [hb]
      split at h
      · rename_i hn; cases h; exact .waith hd hn
      · rename_i hn
        split at h
        · cases h
        · rename_i n hl
          split at h
          · rename_i hlt; cases h; exact .waitb n hd (by omega) hl hlt
          · rename_i hge
            split at h
            · rename_i hv; cases h; exact .emit n hd (by omega) hl (by omega) hv
            · rename_i hv
              cases h
              exact .reject n hd (by omega) hl (by omega) (by simpa using hv)

/-- The decode answers a scan operation, never another. -/
theorem decode_isScan (cfg : Config) (r : List Byte) (i : Instr) (h : decode cfg r = .ok i) :
    i.isScan = true := by
  cases decode_cases cfg r i h <;> rfl

end Sys2Proof
end

