-- ==== Sys2Proof/Laws/State.lean ====
section
/-! SUPPORT. One lemma per field per state update, so that no proof unfolds a record update. -/

namespace Sys2Proof.Machine

/-! ### `State.advance`: `K <- K + n` -/

@[simp] theorem State.advance_phase (s : State) (n : Nat) : (s.advance n).phase = s.phase := rfl
@[simp] theorem State.advance_rb (s : State) (n : Nat) : (s.advance n).rb = s.rb := rfl
@[simp] theorem State.advance_w (s : State) (n : Nat) : (s.advance n).w = s.w := rfl
@[simp] theorem State.advance_k (s : State) (n : Nat) : (s.advance n).k = s.k + n := rfl
@[simp] theorem State.advance_out (s : State) (n : Nat) : (s.advance n).out = s.out := rfl
@[simp] theorem State.advance_log (s : State) (n : Nat) : (s.advance n).log = s.log := rfl
@[simp] theorem State.advance_host (s : State) (n : Nat) : (s.advance n).host = s.host := rfl
@[simp] theorem State.advance_answer (s : State) (n : Nat) : (s.advance n).answer = s.answer := rfl

/-! ### `State.setResidual`: `RB <- t` -/

@[simp] theorem State.setResidual_phase (s : State) (t : List Byte) : (s.setResidual t).phase = s.phase := rfl
@[simp] theorem State.setResidual_rb (s : State) (t : List Byte) : (s.setResidual t).rb = t := rfl
@[simp] theorem State.setResidual_w (s : State) (t : List Byte) : (s.setResidual t).w = s.w := rfl
@[simp] theorem State.setResidual_k (s : State) (t : List Byte) : (s.setResidual t).k = s.k := rfl
@[simp] theorem State.setResidual_out (s : State) (t : List Byte) : (s.setResidual t).out = s.out := rfl
@[simp] theorem State.setResidual_log (s : State) (t : List Byte) : (s.setResidual t).log = s.log := rfl
@[simp] theorem State.setResidual_host (s : State) (t : List Byte) : (s.setResidual t).host = s.host := rfl
@[simp] theorem State.setResidual_answer (s : State) (t : List Byte) : (s.setResidual t).answer = s.answer := rfl

/-! ### `State.stopPass`: the stop of a pass -/

@[simp] theorem State.stopPass_phase (s : State) : (s.stopPass).phase = .idle := rfl
@[simp] theorem State.stopPass_rb (s : State) : (s.stopPass).rb = s.rb := rfl
@[simp] theorem State.stopPass_w (s : State) : (s.stopPass).w = [] := rfl
@[simp] theorem State.stopPass_k (s : State) : (s.stopPass).k = 0 := rfl
@[simp] theorem State.stopPass_out (s : State) : (s.stopPass).out = s.out := rfl
@[simp] theorem State.stopPass_log (s : State) : (s.stopPass).log = s.log := rfl
@[simp] theorem State.stopPass_host (s : State) : (s.stopPass).host = s.host := rfl
@[simp] theorem State.stopPass_answer (s : State) : (s.stopPass).answer = s.answer := rfl

/-! ### `State.startPass`: the start of a pass -/

@[simp] theorem State.startPass_phase (s : State) (c : List Byte) : (s.startPass c).phase = .scan := rfl
@[simp] theorem State.startPass_rb (s : State) (c : List Byte) : (s.startPass c).rb = [] := rfl
@[simp] theorem State.startPass_w (s : State) (c : List Byte) : (s.startPass c).w = s.rb ++ c := rfl
@[simp] theorem State.startPass_k (s : State) (c : List Byte) : (s.startPass c).k = 0 := rfl
@[simp] theorem State.startPass_out (s : State) (c : List Byte) : (s.startPass c).out = s.out := rfl
@[simp] theorem State.startPass_log (s : State) (c : List Byte) : (s.startPass c).log = s.log := rfl
@[simp] theorem State.startPass_host (s : State) (c : List Byte) : (s.startPass c).host = s.host := rfl
@[simp] theorem State.startPass_answer (s : State) (c : List Byte) : (s.startPass c).answer = s.answer := rfl

/-! ### `State.deliver`: `emit f` -/

@[simp] theorem State.deliver_phase (s : State) (f : List Byte) : (s.deliver f).phase = s.phase := rfl
@[simp] theorem State.deliver_rb (s : State) (f : List Byte) : (s.deliver f).rb = s.rb := rfl
@[simp] theorem State.deliver_w (s : State) (f : List Byte) : (s.deliver f).w = s.w := rfl
@[simp] theorem State.deliver_k (s : State) (f : List Byte) : (s.deliver f).k = s.k := rfl
@[simp] theorem State.deliver_out (s : State) (f : List Byte) : (s.deliver f).out = s.out ++ [⟨f⟩] := rfl
@[simp] theorem State.deliver_log (s : State) (f : List Byte) : (s.deliver f).log = s.log := rfl
@[simp] theorem State.deliver_host (s : State) (f : List Byte) : (s.deliver f).host = s.host := rfl
@[simp] theorem State.deliver_answer (s : State) (f : List Byte) : (s.deliver f).answer = s.answer := rfl

/-! ### `State.record`: `log e` -/

@[simp] theorem State.record_phase (s : State) (es : List Event) : (s.record es).phase = s.phase := rfl
@[simp] theorem State.record_rb (s : State) (es : List Event) : (s.record es).rb = s.rb := rfl
@[simp] theorem State.record_w (s : State) (es : List Event) : (s.record es).w = s.w := rfl
@[simp] theorem State.record_k (s : State) (es : List Event) : (s.record es).k = s.k := rfl
@[simp] theorem State.record_out (s : State) (es : List Event) : (s.record es).out = s.out := rfl
@[simp] theorem State.record_log (s : State) (es : List Event) : (s.record es).log = s.log ++ es := rfl
@[simp] theorem State.record_host (s : State) (es : List Event) : (s.record es).host = s.host := rfl
@[simp] theorem State.record_answer (s : State) (es : List Event) : (s.record es).answer = s.answer := rfl

/-! ### `State.clear`: the reset values -/

@[simp] theorem State.clear_phase (s : State) : (s.clear).phase = .idle := rfl
@[simp] theorem State.clear_rb (s : State) : (s.clear).rb = [] := rfl
@[simp] theorem State.clear_w (s : State) : (s.clear).w = [] := rfl
@[simp] theorem State.clear_k (s : State) : (s.clear).k = 0 := rfl
@[simp] theorem State.clear_out (s : State) : (s.clear).out = s.out := rfl
@[simp] theorem State.clear_log (s : State) : (s.clear).log = s.log := rfl
@[simp] theorem State.clear_host (s : State) : (s.clear).host = s.host := rfl
@[simp] theorem State.clear_answer (s : State) : (s.clear).answer = s.answer := rfl

/-! ### `State.answerWith`: a returned value -/

@[simp] theorem State.answerWith_phase (s : State) (a : Answer) : (s.answerWith a).phase = s.phase := rfl
@[simp] theorem State.answerWith_rb (s : State) (a : Answer) : (s.answerWith a).rb = s.rb := rfl
@[simp] theorem State.answerWith_w (s : State) (a : Answer) : (s.answerWith a).w = s.w := rfl
@[simp] theorem State.answerWith_k (s : State) (a : Answer) : (s.answerWith a).k = s.k := rfl
@[simp] theorem State.answerWith_out (s : State) (a : Answer) : (s.answerWith a).out = s.out := rfl
@[simp] theorem State.answerWith_log (s : State) (a : Answer) : (s.answerWith a).log = s.log := rfl
@[simp] theorem State.answerWith_host (s : State) (a : Answer) : (s.answerWith a).host = s.host := rfl
@[simp] theorem State.answerWith_answer (s : State) (a : Answer) : (s.answerWith a).answer = some a := rfl

/-! ### `State.withHost`: a host move taken -/

@[simp] theorem State.withHost_phase (s : State) (h : List HostAct) : (s.withHost h).phase = s.phase := rfl
@[simp] theorem State.withHost_rb (s : State) (h : List HostAct) : (s.withHost h).rb = s.rb := rfl
@[simp] theorem State.withHost_w (s : State) (h : List HostAct) : (s.withHost h).w = s.w := rfl
@[simp] theorem State.withHost_k (s : State) (h : List HostAct) : (s.withHost h).k = s.k := rfl
@[simp] theorem State.withHost_out (s : State) (h : List HostAct) : (s.withHost h).out = s.out := rfl
@[simp] theorem State.withHost_log (s : State) (h : List HostAct) : (s.withHost h).log = s.log := rfl
@[simp] theorem State.withHost_host (s : State) (h : List HostAct) : (s.withHost h).host = h := rfl
@[simp] theorem State.withHost_answer (s : State) (h : List HostAct) : (s.withHost h).answer = s.answer := rfl

/-! ### `State.withWork`: bytes placed in the work buffer -/

@[simp] theorem State.withWork_phase (s : State) (b : List Byte) : (s.withWork b).phase = .scan := rfl
@[simp] theorem State.withWork_rb (s : State) (b : List Byte) : (s.withWork b).rb = s.rb := rfl
@[simp] theorem State.withWork_w (s : State) (b : List Byte) : (s.withWork b).w = b := rfl
@[simp] theorem State.withWork_k (s : State) (b : List Byte) : (s.withWork b).k = 0 := rfl
@[simp] theorem State.withWork_out (s : State) (b : List Byte) : (s.withWork b).out = s.out := rfl
@[simp] theorem State.withWork_log (s : State) (b : List Byte) : (s.withWork b).log = s.log := rfl
@[simp] theorem State.withWork_host (s : State) (b : List Byte) : (s.withWork b).host = [] := rfl
@[simp] theorem State.withWork_answer (s : State) (b : List Byte) : (s.withWork b).answer = s.answer := rfl

end Sys2Proof.Machine
end

