-- ==== Sys2Proof/Laws/Ops.lean ====
section
/-! SUPPORT. For each shared operation, once, everything it can do. -/

namespace Sys2Proof.Machine

theorem memRead_eq_some_iff (m : List Byte) (a n : Nat) (x : List Byte) :
    memRead m a n = some x ↔ a + n ≤ m.length ∧ (m.drop a).take n = x := by
  simp [memRead]

/-- A read that answers, answers as many bytes as it was asked for. -/
theorem memRead_length (m : List Byte) (a n : Nat) (x : List Byte) (h : memRead m a n = some x) :
    x.length = n := by
  obtain ⟨h₁, rfl⟩ := (memRead_eq_some_iff m a n x).1 h
  simp; omega

theorem State.tail_eq_some_iff (s : State) (r : List Byte) :
    s.tail = some r ↔ s.k ≤ s.w.length ∧ s.w.drop s.k = r := by
  unfold State.tail
  rw [memRead_eq_some_iff, List.take_of_length_le (by simp)]
  constructor <;> rintro ⟨h₁, h₂⟩ <;> exact ⟨by omega, h₂⟩

/-- The scan operation is selected exactly in `SCAN`, with the cursor within `W`, by the decode. -/
theorem State.selected_eq_ok_iff (s : State) (i : Instr) :
    s.selected = .ok i ↔
      s.phase = .scan ∧ s.k ≤ s.w.length ∧ decode block (s.w.drop s.k) = .ok i := by
  unfold State.selected
  cases hp : s.phase with
  | idle => simp
  | scan =>
    cases ht : s.tail with
    | none =>
      have : ¬ s.k ≤ s.w.length := fun hk => by
        have := (State.tail_eq_some_iff s _).2 ⟨hk, rfl⟩
        rw [ht] at this; cases this
      simp [this]
    | some r =>
      obtain ⟨hk, rfl⟩ := (State.tail_eq_some_iff s r).1 ht
      cases hd : decode block (s.w.drop s.k) <;> simp [hk, hd]

/-- What is selected is a scan operation. -/
theorem State.isScan_of_selected (s : State) (i : Instr) (h : s.selected = .ok i) :
    i.isScan = true :=
  decode_isScan _ _ _ ((State.selected_eq_ok_iff s i).1 h).2.2

theorem whenSelected_eq_next_iff (i : Instr) (s t t' : State) :
    whenSelected i s t = .next t' ↔ s.selected = .ok i ∧ t' = t := by
  unfold whenSelected
  cases hs : s.selected with
  | error e => simp
  | ok j =>
    by_cases hj : j = i
    · simp [hj, eq_comm]
    · simp [hj]

/-- A scan operation never faults; it has its step or is refused. -/
theorem whenSelected_cases (i : Instr) (s t : State) :
    whenSelected i s t = .next t ∨ ∃ e, whenSelected i s t = .refused e := by
  unfold whenSelected
  cases s.selected with
  | error e => exact .inr ⟨e, rfl⟩
  | ok j =>
    by_cases hj : j = i
    · exact .inl (if_pos hj)
    · exact .inr ⟨_, if_neg hj⟩

theorem andThen_eq_next_iff (r : Host.Outcome State Fault Refusal)
    (g : State → Host.Outcome State Fault Refusal) (t : State) :
    andThen r g = .next t ↔ ∃ s, r = .next s ∧ g s = .next t := by
  cases r <;> simp [andThen]

/-! ### Each arm of `exec` -/

theorem exec_trailer (x : List Byte) (s : State) : exec (.trailer x) s = execTrailer x s := rfl
theorem exec_valid (x : List Byte) (s : State) : exec (.valid x) s = execValid x s := rfl
theorem exec_endPass (s : State) : exec .endPass s = execEnd s := rfl
theorem exec_skip (b : Byte) (s : State) : exec (.skip b) s = execSkip b s := rfl
theorem exec_waith (x : List Byte) (s : State) : exec (.waith x) s = execWaith x s := rfl
theorem exec_waitb (x : List Byte) (s : State) : exec (.waitb x) s = execWaitb x s := rfl
theorem exec_reject (x : List Byte) (s : State) : exec (.reject x) s = execReject x s := rfl
theorem exec_emit (x : List Byte) (s : State) : exec (.emit x) s = execEmit x s := rfl
theorem exec_push (c : List Byte) (s : State) : exec (.push c) s = execPush c s := rfl
theorem exec_reset (s : State) : exec .reset s = execReset s := rfl
theorem exec_extract (rb c : List Byte) (s : State) :
    exec (.extract rb c) s = execExtract rb c s := rfl

/-! ### One spec lemma per meaning -/

theorem execEnd_eq_next_iff (s t : State) :
    execEnd s = .next t ↔ s.selected = .ok .endPass ∧ t = s.stopPass :=
  whenSelected_eq_next_iff _ _ _ _

theorem execSkip_eq_next_iff (b : Byte) (s t : State) :
    execSkip b s = .next t ↔
      s.selected = .ok (.skip b) ∧ t = (s.record [.skip b]).advance 1 :=
  whenSelected_eq_next_iff _ _ _ _

theorem execWaith_eq_next_iff (r : List Byte) (s t : State) :
    execWaith r s = .next t ↔ s.selected = .ok (.waith r) ∧ t = (s.setResidual r).stopPass :=
  whenSelected_eq_next_iff _ _ _ _

theorem execWaitb_eq_next_iff (r : List Byte) (s t : State) :
    execWaitb r s = .next t ↔ s.selected = .ok (.waitb r) ∧ t = (s.setResidual r).stopPass :=
  whenSelected_eq_next_iff _ _ _ _

theorem execReject_eq_next_iff (f : List Byte) (s t : State) :
    execReject f s = .next t ↔
      s.selected = .ok (.reject f) ∧ t = (s.record (rejectEvent f).toList).advance 1 :=
  whenSelected_eq_next_iff _ _ _ _

theorem execEmit_eq_next_iff (f : List Byte) (s t : State) :
    execEmit f s = .next t ↔
      s.selected = .ok (.emit f) ∧ t = ((s.deliver f).setResidual []).advance f.length :=
  whenSelected_eq_next_iff _ _ _ _

theorem execPush_eq_next_iff (c : List Byte) (s t : State) :
    execPush c s = .next t ↔
      s.phase = .idle ∧ c.length ≤ block.chunkMax ∧ t = s.startPass c := by
  unfold execPush
  cases s.phase with
  | scan => simp
  | idle =>
    by_cases hc : c.length ≤ block.chunkMax
    · rw [if_pos hc]; simp only [Host.Outcome.next.injEq, true_and, hc]; exact eq_comm
    · rw [if_neg hc]; simp only [reduceCtorEq, hc, false_and, and_false]

theorem execReset_eq_next_iff (s t : State) : execReset s = .next t ↔ t = s.clear := by
  simp [execReset, eq_comm]

/-- A pass that ends, ends in `IDLE`. -/
theorem runPass_phase (n : Nat) (s t : State) (h : runPass n s = .next t) : t.phase = .idle := by
  induction n generalizing s with
  | zero => cases h
  | succ n ih =>
    obtain ⟨u, -, hu⟩ := (andThen_eq_next_iff _ _ _).1 h
    cases hp : u.phase with
    | idle => rw [hp] at hu; cases hu; exact hp
    | scan => rw [hp] at hu; exact ih u hu

/-- The extractor's step is the meaning of the operation selected. -/
theorem scanStep_eq_exec (s : State) (i : Instr) (h : s.selected = .ok i) :
    scanStep s = exec i s := by
  have hi := State.isScan_of_selected s i h
  unfold scanStep
  rw [h]
  cases i <;> first | rfl | cases hi

theorem execExtract_eq_next_iff (rb c : List Byte) (s t : State) :
    execExtract rb c s = .next t ↔
      s.phase = .idle ∧ c.length ≤ block.chunkMax ∧ s.rb = rb ∧
        ∃ u, runPass ((s.rb ++ c).length + 1) (s.startPass c) = .next u ∧
          t = u.answerWith (passAnswer s u) := by
  unfold execExtract
  rw [andThen_eq_next_iff]
  constructor
  · rintro ⟨s₁, h₁, h₂⟩
    obtain ⟨hp, hc, rfl⟩ := (execPush_eq_next_iff c s s₁).1 h₁
    split at h₂
    · rename_i hr
      obtain ⟨u, hu, ht⟩ := (andThen_eq_next_iff _ _ _).1 h₂
      exact ⟨hp, hc, hr, u, hu, by cases ht; rfl⟩
    · cases h₂
  · rintro ⟨hp, hc, hr, u, hu, rfl⟩
    refine ⟨_, (execPush_eq_next_iff c s _).2 ⟨hp, hc, rfl⟩, ?_⟩
    rw [if_pos hr, andThen_eq_next_iff]
    exact ⟨u, hu, rfl⟩

end Sys2Proof.Machine
end

