-- ==== Sys2Proof/Laws/Memory.lean ====
section
/-! SUPPORT. Every operation on the two storage spaces keeps their form (`Memory.wf`, R32 items 1 and 2,
R52). -/

namespace Sys2Proof.Machine

theorem Memory.wf_iff (s : State) :
    Memory.wf s = true ↔
      s.rb.length ≤ block.rbMax ∧ s.w.length ≤ block.bufCap ∧ s.k ≤ s.w.length := by
  simp only [Memory.wf, Bool.and_eq_true, decide_eq_true_eq, and_assoc]

theorem Memory.wf_reset : Memory.wf State.reset = true := by
  rw [Memory.wf_iff]; exact ⟨Nat.zero_le _, Nat.zero_le _, Nat.le_refl _⟩

theorem Memory.wf_advance (s : State) (n : Nat) (h : Memory.wf s = true)
    (hn : s.k + n ≤ s.w.length) : Memory.wf (s.advance n) = true := by
  rw [Memory.wf_iff] at *; exact ⟨h.1, h.2.1, hn⟩

theorem Memory.wf_setResidual (s : State) (t : List Byte) (h : Memory.wf s = true)
    (ht : t.length ≤ block.rbMax) : Memory.wf (s.setResidual t) = true := by
  rw [Memory.wf_iff] at *; exact ⟨ht, h.2⟩

theorem Memory.wf_stopPass (s : State) (h : Memory.wf s = true) : Memory.wf s.stopPass = true := by
  rw [Memory.wf_iff] at *; exact ⟨h.1, Nat.zero_le _, Nat.le_refl _⟩

theorem Memory.wf_startPass (s : State) (c : List Byte) (h : Memory.wf s = true)
    (hc : c.length ≤ block.chunkMax) : Memory.wf (s.startPass c) = true := by
  rw [Memory.wf_iff] at *
  refine ⟨Nat.zero_le _, ?_, Nat.zero_le _⟩
  have := h.1
  simp only [State.startPass_w, List.length_append, block_bufCap, block_rbMax] at *
  omega

theorem Memory.wf_clear (s : State) : Memory.wf s.clear = true := by
  rw [Memory.wf_iff]; exact ⟨Nat.zero_le _, Nat.zero_le _, Nat.le_refl _⟩

theorem Memory.wf_of_same (s t : State) (h : Memory.wf s = true) (hrb : t.rb = s.rb) (hw : t.w = s.w)
    (hk : t.k = s.k) : Memory.wf t = true := by
  rw [Memory.wf_iff] at *; rw [hrb, hw, hk]; exact h

theorem Memory.wf_deliver (s : State) (f : List Byte) (h : Memory.wf s = true) :
    Memory.wf (s.deliver f) = true := Memory.wf_of_same s _ h rfl rfl rfl

theorem Memory.wf_record (s : State) (es : List Event) (h : Memory.wf s = true) :
    Memory.wf (s.record es) = true := Memory.wf_of_same s _ h rfl rfl rfl

theorem Memory.wf_answerWith (s : State) (a : Answer) (h : Memory.wf s = true) :
    Memory.wf (s.answerWith a) = true := Memory.wf_of_same s _ h rfl rfl rfl

theorem Memory.wf_withHost (s : State) (l : List HostAct) (h : Memory.wf s = true) :
    Memory.wf (s.withHost l) = true := Memory.wf_of_same s _ h rfl rfl rfl

end Sys2Proof.Machine
end

