-- ==== Sys2Proof/Laws/WellFormed.lean ====
section
/-! SUPPORT. What well-formedness of each operation says, as a proposition. -/

namespace Sys2Proof

theorem wf_skip_iff (cfg : Config) (b : Byte) : (Instr.skip b).wf cfg = true ↔ b ≠ cfg.sync := by
  simp only [Instr.wf, bne_iff_ne]

theorem wf_waith_iff (cfg : Config) (t : List Byte) :
    (Instr.waith t).wf cfg = true ↔ t.head? = some cfg.sync ∧ t.length < cfg.hdrLen := by
  simp only [Instr.wf, Bool.and_eq_true, beq_iff_eq, decide_eq_true_eq]

theorem wf_waitb_iff (cfg : Config) (t : List Byte) :
    (Instr.waitb t).wf cfg = true ↔
      t.head? = some cfg.sync ∧ cfg.hdrLen ≤ t.length ∧
        ∃ n, declaredLen cfg t = some n ∧ t.length < n := by
  simp only [Instr.wf, Bool.and_eq_true, beq_iff_eq, decide_eq_true_eq, and_assoc]
  cases declaredLen cfg t <;> simp

theorem wf_reject_iff (cfg : Config) (f : List Byte) :
    (Instr.reject f).wf cfg = true ↔ isCandidate cfg f = true ∧ valid cfg f = false := by
  simp only [Instr.wf, Bool.and_eq_true, Bool.not_eq_true']

theorem wf_emit_iff (cfg : Config) (f : List Byte) :
    (Instr.emit f).wf cfg = true ↔ isFrame cfg f = true := Iff.rfl

theorem wf_push_iff (cfg : Config) (c : List Byte) :
    (Instr.push c).wf cfg = true ↔ c.length ≤ cfg.chunkMax := by
  simp only [Instr.wf, decide_eq_true_eq]

theorem wf_extract_iff (cfg : Config) (rb c : List Byte) :
    (Instr.extract rb c).wf cfg = true ↔ c.length ≤ cfg.chunkMax := by
  simp only [Instr.wf, decide_eq_true_eq]

end Sys2Proof
end

