-- ==== Sys2Proof/Laws/PerInstr.lean ====
section
/-! SUPPORT. Facts stated for every operation, one lemma per constructor. -/

namespace Sys2Proof.Laws.EncodingSize

/-- The bytes a well-formed operation is decoded from are at most `MAX_FRAME` (`30_encoding.md` R64). -/
def Statement (i : Instr) : Prop :=
  i.wf block = true → ∀ bs, encode i = some bs → bs.length ≤ block.maxFrame

theorem trailer (s : List Byte) : Statement (.trailer s) := fun _ _ h => by cases h
theorem valid (f : List Byte) : Statement (.valid f) := fun _ _ h => by cases h
theorem endPass : Statement .endPass := fun _ _ h => by cases h; exact Nat.zero_le _

theorem skip (b : Byte) : Statement (.skip b) := fun _ _ h => by
  cases h
  rw [block_maxFrame, List.length_singleton]; omega

theorem waith (t : List Byte) : Statement (.waith t) := fun hw _ h => by
  cases h
  have hn := ((wf_waith_iff _ _).1 hw).2
  rw [block_hdrLen] at hn
  rw [block_maxFrame]; omega

theorem waitb (t : List Byte) : Statement (.waitb t) := fun hw _ h => by
  cases h
  obtain ⟨-, -, n, hd, hn⟩ := (wf_waitb_iff _ _).1 hw
  have := (lenOff_lt_declaredLen block block_wellFormed t n hd).2.2
  omega

/-- A candidate is no longer than the longest frame. -/
theorem candidate_length_le (f : List Byte) (h : isCandidate block f = true) :
    f.length ≤ block.maxFrame :=
  (lenOff_lt_declaredLen block block_wellFormed f _ ((isCandidate_iff _ _).1 h).2).2.2

theorem reject (f : List Byte) : Statement (.reject f) := fun hw _ h => by
  cases h
  exact candidate_length_le f ((wf_reject_iff _ _).1 hw).1

theorem emit (f : List Byte) : Statement (.emit f) := fun hw _ h => by
  cases h
  have hf := (isFrame_iff _ _).1 ((wf_emit_iff _ _).1 hw)
  exact candidate_length_le f ((isCandidate_iff _ _).2 ⟨hf.1, hf.2.1⟩)

theorem push (c : List Byte) : Statement (.push c) := fun _ _ h => by cases h
theorem reset : Statement .reset := fun _ _ h => by cases h
theorem extract (rb c : List Byte) : Statement (.extract rb c) := fun _ _ h => by cases h

end Sys2Proof.Laws.EncodingSize
end

