-- ==== Sys2Proof/Laws/Scan.lean ====
section
/-! SUPPORT. The recursion of `scan` without its bound: the equations of `41_frame_extractor.md` R110. -/

namespace Sys2Proof.Machine

/-- One more unit of fuel than the bytes left need changes nothing. -/
theorem scanFuel_add (cfg : Config) (hw : cfg.WellFormed) (w : List Byte) :
    ∀ (n m k : Nat), w.length - k < n → scanFuel cfg w (n + m) k = scanFuel cfg w n k := by
  intro n
  induction n with
  | zero => intro m k h; omega
  | succ n ih =>
    intro m k h
    rw [Nat.succ_add]
    unfold scanFuel
    match hd : w.drop k with
    | [] => rfl
    | b :: r =>
      have hk : k < w.length := by
        by_contra hk
        rw [List.drop_eq_nil_of_le (by omega)] at hd; cases hd
      have hone := ih m (k + 1) (by omega)
      dsimp only
      split
      · exact hone
      · split
        · rfl
        · split
          · rfl
          · rename_i len _
            split
            · rfl
            · split
              · rw [ih m (k + (cfg.hdrLen + len.toNat + cfg.trlLen))
                  (by have := hw.header; omega)]
              · exact hone

theorem scanFuel_eq_scan (cfg : Config) (hw : cfg.WellFormed) (w : List Byte) (n k : Nat)
    (h : w.length - k < n) : scanFuel cfg w n k = scan cfg w k := by
  obtain ⟨m, rfl⟩ := Nat.exists_eq_add_of_le (show w.length - k + 1 ≤ n by omega)
  exact scanFuel_add cfg hw w _ m k (by omega)

/-- The equations of R110. -/
theorem scan_eq (cfg : Config) (hw : cfg.WellFormed) (w : List Byte) (k : Nat) :
    scan cfg w k =
      match w.drop k with
      | [] => ([], [])
      | b :: r =>
        if b ≠ cfg.sync then scan cfg w (k + 1)
        else if (b :: r).length < cfg.hdrLen then ([], b :: r)
        else
          match (b :: r)[cfg.lenOff]? with
          | none => ([], b :: r)
          | some len =>
            if (b :: r).length < cfg.hdrLen + len.toNat + cfg.trlLen then ([], b :: r)
            else if valid cfg ((b :: r).take (cfg.hdrLen + len.toNat + cfg.trlLen)) then
              (⟨(b :: r).take (cfg.hdrLen + len.toNat + cfg.trlLen)⟩ ::
                  (scan cfg w (k + (cfg.hdrLen + len.toNat + cfg.trlLen))).1,
                (scan cfg w (k + (cfg.hdrLen + len.toNat + cfg.trlLen))).2)
            else scan cfg w (k + 1) := by
  rw [scan]
  unfold scanFuel
  match hd : w.drop k with
  | [] => rfl
  | b :: r =>
    have hk : k < w.length := by
      by_contra hk
      rw [List.drop_eq_nil_of_le (by omega)] at hd; cases hd
    have hone := scanFuel_eq_scan cfg hw w (w.length - k) (k + 1) (by omega)
    dsimp only
    split
    · exact hone
    · split
      · rfl
      · cases (b :: r)[cfg.lenOff]? with
        | none => rfl
        | some len =>
          have hjump := scanFuel_eq_scan cfg hw w (w.length - k)
            (k + (cfg.hdrLen + len.toNat + cfg.trlLen)) (by have := hw.header; omega)
          dsimp only
          rw [hjump, hone]

end Sys2Proof.Machine
end

