-- ==== Sys2Proof/Laws/Step.lean ====
section
/-! SUPPORT. What one step can do, once. -/

namespace Sys2Proof.Machine

/-- The ways a step answers a next state: a reset taken, a chunk taken in `IDLE`, the block idle with
nothing asked, or the selected scan operation performed in `SCAN`. -/
inductive StepsTo (s : State) : State → Prop
  | reset (h : List HostAct) (hh : s.host = .reset :: h) : StepsTo s (s.withHost h).clear
  | push (c : List Byte) (h : List HostAct) (hh : s.host = .push c :: h) (hp : s.phase = .idle)
      (hc : c.length ≤ block.chunkMax) : StepsTo s ((s.withHost h).startPass c)
  | wait (hr : ∀ h, s.host ≠ .reset :: h) (hc : ∀ c h, s.host ≠ .push c :: h)
      (hp : s.phase = .idle) : StepsTo s (s.withHost (afterGap s.host))
  | scan (i : Instr) (t : State) (hr : ∀ h, s.host ≠ .reset :: h) (hs : s.selected = .ok i)
      (ht : exec i (s.withHost (afterGap s.host)) = .next t) : StepsTo s t

theorem map_eq_ok_iff {α β : Type} (r : Except Refusal α) (g : α → β) (y : β) :
    r.map g = .ok y ↔ ∃ x, r = .ok x ∧ g x = y := by
  cases r <;> simp [Except.map]

/-- Taking the script's head away does not change what is selected. -/
@[simp] theorem State.selected_withHost (s : State) (h : List HostAct) :
    (s.withHost h).selected = s.selected := rfl

/-- If a step answers a next state, one of these cases holds. -/
theorem step_cases (s t : State) (h : step s = .next t) : StepsTo s t := by
  unfold step at h
  split at h
  · cases h
  · rename_i u ha
    cases h
    unfold arbitrate at ha
    split at ha
    · cases ha
    · rename_i c hs hh
      split at ha
      · cases ha
      · obtain ⟨x, -, hx⟩ := (map_eq_ok_iff _ _ _).1 ha; cases hx
    · rename_i hr hc
      split at ha
      · rename_i hp
        cases ha
        exact .wait (fun h e => hr h e) (fun c h e => hc c h e) hp
      · obtain ⟨x, -, hx⟩ := (map_eq_ok_iff _ _ _).1 ha; cases hx
  · rename_i i u ha
    unfold arbitrate at ha
    split at ha
    · rename_i hs hh
      cases ha
      rw [(execReset_eq_next_iff _ _).1 h]
      exact .reset hs hh
    · rename_i c hs hh
      split at ha
      · rename_i hp
        cases ha
        obtain ⟨-, hc, rfl⟩ := (execPush_eq_next_iff _ _ _).1 h
        exact .push c hs hh hp hc
      · obtain ⟨x, hx, hy⟩ := (map_eq_ok_iff _ _ _).1 ha
        cases hy
        have hg : afterGap s.host = s.host := by rw [hh]; rfl
        have e : s.withHost (afterGap s.host) = s := by rw [hg]; rfl
        exact .scan i t (by rw [hh]; simp) hx (by rw [e]; exact h)
    · rename_i hr hc
      split at ha
      · cases ha
      · obtain ⟨x, hx, hy⟩ := (map_eq_ok_iff _ _ _).1 ha
        cases hy
        exact .scan i t (fun h e => hr h e) hx h

@[simp] theorem run_zero (s : State) : run 0 s = .next s := rfl

/-- A run whose first step answers `t` goes on from `t`. -/
theorem run_succ (n : Nat) (s t : State) (h : step s = .next t) : run (n + 1) s = run n t := by
  rw [run, h]; rfl

theorem core_run_next (M : Host.Core) (n : Nat) (s t : M.State) (h : M.step s = .next t) :
    M.run (n + 1) s = M.run n t := by rw [Host.Core.run, h]

theorem core_run_fault (M : Host.Core) (n : Nat) (s : M.State) (e : M.Fault)
    (h : M.step s = .fault e) : M.run (n + 1) s = .fault e := by rw [Host.Core.run, h]

theorem core_run_refused (M : Host.Core) (n : Nat) (s : M.State) (e : M.Refusal)
    (h : M.step s = .refused e) : M.run (n + 1) s = .refused e := by rw [Host.Core.run, h]

/-- The model's run is the host's. -/
theorem run_eq_core_run (n : Nat) (s : State) : run n s = Host.Core.run Sys2Proof.core n s := by
  induction n generalizing s with
  | zero => exact (run_zero s).trans (Host.Core.run.eq_1 Sys2Proof.core s).symm
  | succ n ih =>
    rw [run]
    cases hs : step s with
    | next t => exact (ih t).trans (core_run_next Sys2Proof.core n s t hs).symm
    | fault e => exact (core_run_fault Sys2Proof.core n s e hs).symm
    | refused e => exact (core_run_refused Sys2Proof.core n s e hs).symm

end Sys2Proof.Machine
end

