-- ==== Sys2Proof/Tests/Slice0.lean ====
section
/-! SUPPORT. Tests of the model on fixed values, their results taken from `95_test_vectors.md` or worked
out by hand from the rules named; and, for every statement with hypotheses, a witness that meets them. -/

namespace Sys2Proof.Tests

open Sys2Proof.Machine

/-! ### The frames of `95_test_vectors.md` and small states -/

def frameA : List Byte :=
  [0xF7#8, 0x21#8, 0x13#8, 0x41#8, 0x03#8, 0x02#8, 0x01#8, 0x00#8, 0x84#8, 0xF6#8]
def frameB : List Byte := [0xF7#8, 0x36#8, 0x1F#8, 0x81#8, 0x00#8, 0x5F#8, 0x2C#8]
def frameC : List Byte :=
  [0xF7#8, 0x21#8, 0x11#8, 0x81#8, 0x03#8, 0xF7#8, 0x21#8, 0x00#8, 0x93#8, 0x58#8]
def frameZ : List Byte := [0xF7#8, 0x00#8, 0x00#8, 0x00#8, 0x00#8, 0xF7#8, 0xEE#8]
def frameQ : List Byte := [0xF7#8, 0xF7#8, 0xF7#8, 0xF7#8, 0x01#8, 0xF7#8, 0xF6#8, 0xCA#8]

/-- B with its add byte off by one (V14, X8). -/
def badB : List Byte := [0xF7#8, 0x36#8, 0x1F#8, 0x81#8, 0x00#8, 0x5F#8, 0x2D#8]

/-- The header of B, its length byte zero (X5). -/
def headB : List Byte := [0xF7#8, 0x36#8, 0x1F#8, 0x81#8, 0x00#8]

/-- One byte short of a header (X4). -/
def shortHead : List Byte := [0xF7#8, 0x01#8, 0x02#8, 0x03#8]

/-- The largest residual (X11). -/
def longTail : List Byte := [0xF7#8, 0x00#8, 0x00#8, 0x00#8, 0xFF#8] ++ List.replicate 256 0x00#8

/-- The 255 bytes `00 01 ... FE`, the payload of BIG. -/
def bigPayload : List Byte := (List.range 255).map (BitVec.ofNat 8)

/-- BIG, the longest frame. -/
def frameBig : List Byte :=
  [0xF7#8, 0x01#8, 0x02#8, 0x03#8, 0xFF#8] ++ bigPayload ++ [0xF7#8, 0x74#8]

/-- A pass in progress. -/
def scanAt (w : List Byte) (k : Nat) : State := { State.reset with phase := .scan, w := w, k := k }

/-- An idle state with a residual and a host script. -/
def idleAt (rb : List Byte) (h : List HostAct) : State := { State.reset with rb := rb, host := h }

theorem scanAt_inv (w : List Byte) (k : Nat) (hk : k ≤ w.length) (hw : w.length ≤ 261) :
    (scanAt w k).Inv where
  cursor := hk
  capacity := Nat.le_trans hw (Nat.le_add_right _ _)
  residual := Nat.zero_le _
  idle h := nomatch h
  scan _ := rfl
  opens h := absurd rfl h
  incomplete _ h _ := absurd (show 5 ≤ 0 from h) (by decide)
  frames _ h := nomatch h

theorem idleAt_inv (rb : List Byte) (h : List HostAct) (hl : rb.length ≤ 4)
    (ho : rb = [] ∨ rb.head? = some 0xF7#8) : (idleAt rb h).Inv where
  cursor := Nat.le_refl _
  capacity := Nat.zero_le _
  residual := Nat.le_trans hl (by decide)
  idle _ := ⟨rfl, rfl⟩
  scan h := nomatch h
  opens hn := ho.resolve_left hn
  incomplete _ h' _ := absurd (Nat.le_trans h' hl) (by decide)
  frames _ h := nomatch h

/-- A chunk of one byte is within `CHUNK_MAX`, whatever its value. -/
theorem one_le_chunkMax : (1 : Nat) ≤ block.chunkMax := block_chunkMax_pos

/-- A chunk one byte too long (`93_implementation_defined.md` U3). -/
def overChunk : List Byte := List.replicate (block.chunkMax + 1) 0x00#8

theorem overChunk_over : block.chunkMax < overChunk.length := by simp [overChunk]

theorem push_runs (s : State) (c : List Byte) (hp : s.phase = .idle)
    (h : c.length ≤ block.chunkMax) : exec (.push c) s = .next (s.startPass c) :=
  (execPush_eq_next_iff c s _).mpr ⟨hp, h, rfl⟩

/-- X10: an empty chunk on a residual comes back to it. -/
theorem extract_runs :
    exec (.extract headB []) (idleAt headB []) =
      .next { idleAt headB [] with answer := some (.extract [] headB) } := by
  have hp := push_runs (idleAt headB []) [] rfl (Nat.zero_le _)
  rw [exec_push] at hp
  rw [exec_extract, execExtract, hp]
  rfl

/-! ### Well-formedness: each check refuses (R8, and the `cond` of the opcode table) -/

/-- A configuration with numbers where the block has open parameters. -/
def sample : Config where
  sync := 0xF7#8
  hdrLen := 5
  trlLen := 2
  lenOff := 4
  modulus := 256
  chunkMax := 64
  bufCap := 325
  rstKind := ⟨true, true, 1⟩
  roomNibble := .low

theorem test_config_refusals :
    sample.refusal = none ∧
    { sample with hdrLen := 0 }.refusal = some .headerEmpty ∧
    { sample with lenOff := 5 }.refusal = some .lengthOutsideHeader ∧
    { sample with trlLen := 1 }.refusal = some .trailerNotTwo ∧
    { sample with modulus := 255 }.refusal = some .modulusNot256 ∧
    { sample with chunkMax := 0 }.refusal = some .chunkLimitZero ∧
    { sample with bufCap := 324 }.refusal = some .bufferTooSmall := by decide

theorem test_sample_wellFormed : sample.WellFormed :=
  (Config.refusal_eq_none_iff sample).mp (by decide)

theorem test_wf_refuses :
    (Instr.skip 0xF7#8).wf sample = false ∧
    (Instr.waith []).wf sample = false ∧
    (Instr.waith [0x5A#8]).wf sample = false ∧
    (Instr.waith headB).wf sample = false ∧
    (Instr.waitb shortHead).wf sample = false ∧
    (Instr.waitb frameB).wf sample = false ∧
    (Instr.waitb [0x00#8, 0x36#8, 0x1F#8, 0x81#8, 0x00#8]).wf sample = false ∧
    (Instr.reject frameB).wf sample = false ∧
    (Instr.reject (badB ++ [0x00#8])).wf sample = false ∧
    (Instr.emit badB).wf sample = false ∧
    (Instr.emit frameB.tail).wf sample = false ∧
    (Instr.push (List.replicate 65 0x00#8)).wf sample = false ∧
    (Instr.extract [] (List.replicate 65 0x00#8)).wf sample = false := by decide

theorem test_wf_accepts :
    (Instr.trailer []).wf sample = true ∧ (Instr.valid []).wf sample = true ∧
    Instr.endPass.wf sample = true ∧ (Instr.skip 0x5A#8).wf sample = true ∧
    (Instr.waith shortHead).wf sample = true ∧ (Instr.waitb headB).wf sample = true ∧
    (Instr.reject badB).wf sample = true ∧ (Instr.emit frameB).wf sample = true ∧
    (Instr.push (List.replicate 64 0x00#8)).wf sample = true ∧ Instr.reset.wf sample = true ∧
    (Instr.extract headB []).wf sample = true := by decide

/-! ### Decode: words written out from the spec's encodings (R61, R66) -/

/-- X1, X2, X3, X4. -/
theorem test_decode_short :
    decode block [] = .ok .endPass ∧
    decode block [0x00#8, 0x01#8, 0x02#8] = .ok (.skip 0x00#8) ∧
    decode block [0xF7#8] = .ok (.waith [0xF7#8]) ∧
    decode block shortHead = .ok (.waith shortHead) := ⟨rfl, rfl, rfl, rfl⟩

/-- X5, X6, X14: the length byte decides. -/
theorem test_decode_waitb :
    decode block headB = .ok (.waitb headB) ∧
    decode block (headB ++ [0x5F#8]) = .ok (.waitb (headB ++ [0x5F#8])) ∧
    decode block (List.replicate 12 0xF7#8) = .ok (.waitb (List.replicate 12 0xF7#8)) :=
  ⟨rfl, rfl, rfl⟩

/-- X8 and P3: a failed candidate, with what follows it left out. -/
theorem test_decode_reject :
    decode block badB = .ok (.reject badB) ∧
    decode block ([0xF7#8, 0x21#8, 0x13#8, 0x41#8, 0x03#8, 0x02#8, 0x05#8, 0x00#8, 0x84#8, 0xF6#8]
        ++ frameA) =
      .ok (.reject
        [0xF7#8, 0x21#8, 0x13#8, 0x41#8, 0x03#8, 0x02#8, 0x05#8, 0x00#8, 0x84#8, 0xF6#8]) :=
  ⟨rfl, rfl⟩

/-- X7, X16, P3 and X18: a frame, with what follows it left out. -/
theorem test_decode_emit :
    decode block frameB = .ok (.emit frameB) ∧ decode block frameQ = .ok (.emit frameQ) ∧
    decode block (frameC ++ frameA) = .ok (.emit frameC) ∧
    decode block (frameA ++ [0xF7#8]) = .ok (.emit frameA) := ⟨rfl, rfl, rfl, rfl⟩

/-- R61, R66, numbered as the opcode table numbers bits: the first byte lowest. -/
theorem test_decodeTableWord :
    decodeTableWord 0 0 = some .endPass ∧
    decodeTableWord 8 0x5A = some (.skip 0x5A#8) ∧
    decodeTableWord 8 0xF7 = some (.waith [0xF7#8]) ∧
    decodeTableWord 40 0x00811F36F7 = some (.waitb headB) ∧
    decodeTableWord 56 0x2C5F00811F36F7 = some (.emit frameB) ∧
    decodeTableWord 56 0x2D5F00811F36F7 = some (.reject badB) :=
  ⟨rfl, rfl, rfl, rfl, rfl, rfl⟩

/-- The word placed after reset is what the very next step runs. -/
theorem test_step_fetched :
    step (State.reset.withFetchWord 8 0x5A) =
      .next { scanAt [0x5A#8] 1 with log := [.skip 0x5A#8] } ∧
    step (State.reset.withFetchWord 56 0x2C5F00811F36F7) =
      .next { scanAt frameB 7 with out := [⟨frameB⟩] } := ⟨rfl, rfl⟩

/-! ### Codec vectors -/

/-- V1, V3, V4, V5, V7, V8, V8b, V8d. -/
theorem test_trailer_vectors :
    trailer block [] = (0x00#8, 0x00#8) ∧ trailer block [0xF7#8] = (0xF7#8, 0xEE#8) ∧
    trailer block [0xFF#8, 0xFF#8] = (0x00#8, 0xFE#8) ∧
    trailer block [0x80#8, 0x80#8] = (0x00#8, 0x00#8) ∧
    trailer block [0xFF#8, 0xFF#8, 0xFF#8] = (0xFF#8, 0xFC#8) ∧
    trailer block (frameA.take 8) = (0x84#8, 0xF6#8) ∧ trailer block headB = (0x5F#8, 0x2C#8) ∧
    trailer block [0xF7#8, 0x0E#8, 0x11#8, 0x81#8, 0x00#8] = (0x69#8, 0x00#8) := by decide

/-- V9, V10, V11, V12, V13, V14, V15, V16. -/
theorem test_valid_vectors :
    valid block frameA = true ∧
    valid block [0xF7#8, 0x21#8, 0x13#8, 0x41#8, 0x03#8, 0x03#8, 0x01#8, 0x00#8, 0x84#8, 0xF6#8]
      = false ∧
    valid block [0xF7#8, 0x21#8, 0x13#8, 0x41#8, 0x03#8, 0x02#8, 0x05#8, 0x00#8, 0x84#8, 0xF6#8]
      = false ∧
    valid block [0xF7#8, 0x21#8, 0x13#8, 0x41#8, 0x03#8, 0x02#8, 0x01#8, 0x00#8, 0x94#8, 0xF6#8]
      = false ∧
    valid block [0xF7#8, 0x21#8, 0x13#8, 0x41#8, 0x03#8, 0x02#8, 0x01#8, 0x00#8, 0x84#8, 0x76#8]
      = false ∧
    valid block badB = false ∧
    valid block [0xF7#8, 0x21#8, 0x13#8, 0x41#8, 0x03#8, 0x01#8, 0x02#8, 0x00#8, 0x84#8, 0xF6#8]
      = true ∧
    valid block [0xF7#8, 0x21#8, 0x13#8, 0x41#8, 0x03#8, 0x82#8, 0x81#8, 0x00#8, 0x84#8, 0xF6#8]
      = true := by decide

/-- V17, V18, V19: no header is needed, two bytes are. -/
theorem test_valid_corners :
    valid block [0x00#8, 0x00#8] = true ∧ valid block [0x00#8] = false ∧ valid block [] = false ∧
    valid block [0x21#8, 0x13#8, 0x41#8, 0x03#8, 0x02#8, 0x01#8, 0x00#8, 0x73#8, 0xEE#8] = true := by
  decide

/-- V20: the longest frame. -/
theorem test_valid_big : valid block frameBig = true := by decide +kernel

/-- `FRAME` (R74): the four frames it is said to build. -/
theorem test_buildFrame :
    buildFrame block 0x21#8 0x13#8 0x41#8 [0x02#8, 0x01#8, 0x00#8] = frameA ∧
    buildFrame block 0x36#8 0x1F#8 0x81#8 [] = frameB ∧ buildFrame block 0x00#8 0x00#8 0x00#8 [] = frameZ ∧
    buildFrame block 0xF7#8 0xF7#8 0xF7#8 [0xF7#8] = frameQ := by decide

/-- The views of A (R27, R61). -/
theorem test_view_A :
    viewFrame block frameA = some
      { src := 0x21#8, dst := 0x13#8, cmd := 0x41#8, len := 0x03#8,
        payload := [0x02#8, 0x01#8, 0x00#8], xor := 0x84#8, add := 0xF6#8 } := rfl

/-- With the length byte elsewhere (U10) or a longer header, only the configuration changes: the length byte
stands at `LEN_OFF`, the other header bytes keep their order, and the views find them again. -/
theorem test_frame_other_offsets :
    (buildFrame { sample with lenOff := 2 } 0x36#8 0x1F#8 0x81#8 [0x05#8]).take 5 =
      [0xF7#8, 0x36#8, 0x01#8, 0x1F#8, 0x81#8] ∧
    (viewFrame { sample with lenOff := 2 }
      (buildFrame { sample with lenOff := 2 } 0x36#8 0x1F#8 0x81#8 [0x05#8])).map
        (fun v => ([v.src, v.dst, v.cmd, v.len], v.payload)) =
      some ([0x36#8, 0x1F#8, 0x81#8, 0x01#8], [0x05#8]) ∧
    isFrame { sample with hdrLen := 6 }
      (frameOf { sample with hdrLen := 6 } [0x36#8, 0x1F#8, 0x81#8, 0x00#8] [0x05#8]) = true := by decide

/-! ### One step of each operation -/

/-- V8b; nothing but the answer changes. -/
theorem test_exec_trailer :
    exec (.trailer headB) (scanAt frameB 3) =
      .next { scanAt frameB 3 with answer := some (.trailer 0x5F#8 0x2C#8) } := rfl

/-- V14 and V9. -/
theorem test_exec_valid :
    exec (.valid badB) State.reset = .next { State.reset with answer := some (.valid false) } ∧
    exec (.valid frameA) State.reset = .next { State.reset with answer := some (.valid true) } :=
  ⟨rfl, rfl⟩

/-- X7, the last operation. -/
theorem test_exec_end : exec .endPass (scanAt frameB 7) = .next State.reset := rfl

/-- Not where a byte remains. -/
theorem test_exec_end_not_selected :
    exec .endPass (scanAt frameB 6) = .refused .scanNotSelected := rfl

/-- X2, the second operation. -/
theorem test_exec_skip :
    exec (.skip 0x01#8) (scanAt [0x00#8, 0x01#8, 0x02#8] 1) =
      .next { scanAt [0x00#8, 0x01#8, 0x02#8] 2 with log := [.skip 0x01#8] } := rfl

/-- X18, the last operation. -/
theorem test_exec_waith :
    exec (.waith [0xF7#8]) (scanAt (frameA ++ [0xF7#8]) 10) = .next (idleAt [0xF7#8] []) := rfl

/-- P4: a residual that holds a whole frame. -/
theorem test_exec_waitb :
    exec (.waitb ([0xF7#8, 0x01#8, 0x02#8, 0x03#8, 0x10#8] ++ frameB))
      (scanAt ([0xF7#8, 0x01#8, 0x02#8, 0x03#8, 0x10#8] ++ frameB) 0) =
      .next (idleAt ([0xF7#8, 0x01#8, 0x02#8, 0x03#8, 0x10#8] ++ frameB) []) := rfl

/-- X8: one byte is dropped, the computed trailer is `5F 2C`. -/
theorem test_exec_reject :
    exec (.reject badB) (scanAt badB 0) =
      .next { scanAt badB 1 with log := [.reject 7 0x5F#8 0x2C#8 0x5F#8 0x2D#8] } := rfl

/-- P1, the second frame. -/
theorem test_exec_emit :
    exec (.emit frameB) (scanAt (frameA ++ frameB) 10) =
      .next { scanAt (frameA ++ frameB) 17 with out := [⟨frameB⟩] } := rfl

/-- A frame further on is not the selected candidate. -/
theorem test_exec_emit_not_selected :
    exec (.emit frameB) (scanAt (frameA ++ frameB) 0) = .refused .scanNotSelected := rfl

/-- P5: the sixth chunk. -/
theorem test_exec_push :
    exec (.push [0x41#8]) (idleAt [0xF7#8, 0x21#8, 0x13#8] []) =
      .next (scanAt [0xF7#8, 0x21#8, 0x13#8, 0x41#8] 0) :=
  push_runs _ _ rfl one_le_chunkMax

/-- U3 and U5. -/
theorem test_exec_push_refused :
    exec (.push [0x41#8]) (scanAt frameB 0) = .refused .pushDuringPass ∧
    exec (.push overChunk) State.reset = .refused .chunkOverLimit :=
  ⟨rfl, if_neg (Nat.not_le.mpr overChunk_over)⟩

/-- P6, in the middle of a pass. -/
theorem test_exec_reset : exec .reset (scanAt frameB 3) = .next State.reset := rfl

/-- The one pass of P1, X8, X15 and P7 as the function of R110. -/
theorem test_extract_function :
    extract block [] (frameA ++ frameB) = ([⟨frameA⟩, ⟨frameB⟩], []) ∧
    extract block [] badB = ([], []) ∧
    extract block [] (List.replicate 254 0xF7#8) = ([], List.replicate 253 0xF7#8) ∧
    extract block []
        [0xF7#8, 0xAA#8, 0xBB#8, 0xCC#8, 0x01#8, 0xF7#8, 0xDC#8, 0xFC#8, 0x41#8, 0x01#8, 0x05#8,
          0x92#8, 0xA8#8] =
      ([⟨[0xF7#8, 0xAA#8, 0xBB#8, 0xCC#8, 0x01#8, 0xF7#8, 0xDC#8, 0xFC#8]⟩], []) :=
  ⟨rfl, rfl, by decide +kernel, rfl⟩

/-! ### Written forms (R71, R72, R73, U11) -/

theorem test_hex_text :
    hexToBytes ['F', '7', '0', 'a'] = .ok [0xF7#8, 0x0A#8] ∧
    hexToBytes ['F', '7', '0'] = .error .oddDigits ∧
    hexToBytes ['F', 'G'] = .error .notHexDigit ∧
    bytesToHex [0xF7#8, 0x0A#8] = ['F', '7', '0', 'A'] := ⟨rfl, rfl, rfl, rfl⟩

theorem test_host_lines :
    parseHostLine ['P', 'U', 'S', 'H', ' ', '0', '0', ' ', '5', 'A'] =
      .ok (.push [0x00#8, 0x5A#8]) ∧
    parseHostLine ['P', 'U', 'S', 'H'] = .ok (.push []) ∧
    parseHostLine ['R', 'E', 'S', 'E', 'T'] = .ok .reset ∧
    parseHostLine ['E', 'N', 'D'] = .error .unknownOperation ∧
    writeHostLine (.push [0x5A#8]) = some ['P', 'U', 'S', 'H', ' ', '5', 'A'] :=
  ⟨rfl, rfl, rfl, rfl, rfl⟩

/-- P2: `WAITB@0(n=7,T=10)`, then `EMIT@0(T=10)`, `SKIP@1`. -/
theorem test_trace_items :
    traceItem block (.waitb (frameA.take 7)) 0 = "WAITB@0(n=7,T=10)".toList ∧
    traceItem block (.emit frameA) 0 = "EMIT@0(T=10)".toList ∧
    traceItem block (.skip 0x5A#8) 1 = "SKIP@1".toList ∧
    traceItem block .endPass 10 = "END@10".toList := ⟨rfl, rfl, rfl, rfl⟩

/-! ### Witnesses: values that meet the hypotheses of each statement that has some, clause by clause,
at the ends of the ranges -/

/-- Chunks of length 0, 1, `CHUNK_MAX` and `CHUNK_MAX + 1`; an idle state with a residual. -/
theorem witness_push :
    (idleAt headB []).phase = .idle ∧ ([] : List Byte).length ≤ block.chunkMax ∧
    ([0x41#8] : List Byte).length ≤ block.chunkMax ∧
    (List.replicate block.chunkMax 0x00#8).length ≤ block.chunkMax ∧
    block.chunkMax < overChunk.length ∧ (scanAt frameB 0).phase = .scan ∧
    (idleAt shortHead []).Inv ∧
    exec (.push [0x41#8]) (idleAt shortHead []) = .next (scanAt (shortHead ++ [0x41#8]) 0) :=
  ⟨rfl, Nat.zero_le _, one_le_chunkMax, by simp, overChunk_over, rfl,
    idleAt_inv _ _ (by decide) (by decide), push_runs _ _ rfl one_le_chunkMax⟩

/-- FirstChunkIsScannedFirst. -/
theorem witness_first_chunk : ([0xF7#8] : List Byte).length ≤ block.chunkMax := one_le_chunkMax

/-- EndStopsThePass: with an empty and with a used-up work buffer (X1, X7). -/
theorem witness_end :
    (scanAt [] 0).phase = .scan ∧ (scanAt [] 0).k = (scanAt [] 0).w.length ∧
    (scanAt frameB 7).k = (scanAt frameB 7).w.length := by decide

/-- SkipDropsOneByte: the bytes next to the sync marker. -/
theorem witness_skip :
    (scanAt [0xF6#8, 0xF8#8] 0).w.drop (scanAt [0xF6#8, 0xF8#8] 0).k = 0xF6#8 :: [0xF8#8] ∧
    (scanAt [0xF6#8, 0xF8#8] 1).w.drop (scanAt [0xF6#8, 0xF8#8] 1).k = 0xF8#8 :: [] ∧
    0xF6#8 ≠ block.sync ∧ 0xF8#8 ≠ block.sync ∧ (scanAt [0xF6#8, 0xF8#8] 1).phase = .scan := by
  decide

/-- WaithStoresTheTail: tails of 1 and of 4 bytes (X3, X4). -/
theorem witness_waith :
    (scanAt (0x00#8 :: [0xF7#8]) 1).w.drop 1 = [0xF7#8] ∧
    (scanAt shortHead 0).w.drop 0 = shortHead ∧
    ([0xF7#8] : List Byte).head? = some block.sync ∧ shortHead.head? = some block.sync ∧
    ([0xF7#8] : List Byte).length < block.hdrLen ∧ shortHead.length < block.hdrLen ∧
    shortHead.length = 4 := by decide

/-- WaitbStoresTheTail: tails of 5 (length byte 0) and of 261 bytes (length byte 255) (X5, X11). -/
theorem witness_waitb :
    ((scanAt headB 0).phase = .scan ∧ (scanAt headB 0).w.drop 0 = headB ∧
      headB.head? = some block.sync ∧ headB[4]? = some 0x00#8 ∧
      headB.length < (0x00#8 : Byte).toNat + 7 ∧ headB.length = 5) ∧
    ((scanAt longTail 0).w.drop 0 = longTail ∧ longTail.head? = some block.sync ∧
      longTail[4]? = some 0xFF#8 ∧ longTail.length < (0xFF#8 : Byte).toNat + 7 ∧
      longTail.length = 261) := by decide +kernel

/-- RejectDropsTheSyncByte: the shortest candidate (V14) and the longest (X12). -/
theorem witness_reject :
    ((scanAt badB 0).w.drop 0 = headB ++ [0x5F#8, 0x2D#8] ++ [] ∧
      headB.head? = some block.sync ∧ headB[4]? = some 0x00#8 ∧
      headB.length = (0x00#8 : Byte).toNat + 5 ∧ trailer block headB ≠ (0x5F#8, 0x2D#8)) ∧
    ((longTail.take 260).head? = some block.sync ∧ (longTail.take 260)[4]? = some 0xFF#8 ∧
      (longTail.take 260).length = (0xFF#8 : Byte).toNat + 5 ∧
      trailer block (longTail.take 260) = (0x08#8, 0xFE#8)) := by decide +kernel

/-- EmitDeliversTheFrame: the shortest frame and the longest (X7, X13). -/
theorem witness_emit :
    ((scanAt (frameB ++ [0x00#8]) 0).w.drop 0 = headB ++ [0x5F#8, 0x2C#8] ++ [0x00#8] ∧
      headB.length = (0x00#8 : Byte).toNat + 5 ∧ trailer block headB = (0x5F#8, 0x2C#8)) ∧
    ((frameBig.take 260).head? = some block.sync ∧ (frameBig.take 260)[4]? = some 0xFF#8 ∧
      (frameBig.take 260).length = (0xFF#8 : Byte).toNat + 5 ∧
      trailer block (frameBig.take 260) = (0xF7#8, 0x74#8) ∧
      frameBig = frameBig.take 260 ++ [0xF7#8, 0x74#8]) := by decide +kernel

/-- ExactlyOneScanOperationIsEnabled: the cursor inside and at the end; an idle state. -/
theorem witness_one_enabled :
    (scanAt frameB 0).phase = .scan ∧ (scanAt frameB 0).k ≤ (scanAt frameB 0).w.length ∧
    (scanAt frameB 7).k ≤ (scanAt frameB 7).w.length ∧
    (∃ t, exec .endPass (scanAt frameB 7) = .next t) ∧
    State.reset.phase = .idle ∧ (Instr.emit frameB).isScan = true :=
  ⟨rfl, by decide, by decide, ⟨_, rfl⟩, rfl, rfl⟩

/-- RejectReportsBothTrailers, OutputOnlyGrowsByEmit, PhaseMovesAsTheSpecSays, CursorChangesInOneWay,
BuffersAreWrittenWhole: every operation has a next state somewhere. -/
theorem witness_exec :
    (∃ t, exec (.trailer []) State.reset = .next t) ∧ (∃ t, exec (.valid []) State.reset = .next t) ∧
    (∃ t, exec .endPass (scanAt [] 0) = .next t) ∧
    (∃ t, exec (.skip 0x5A#8) (scanAt [0x5A#8] 0) = .next t) ∧
    (∃ t, exec (.waith shortHead) (scanAt shortHead 0) = .next t) ∧
    (∃ t, exec (.waitb headB) (scanAt headB 0) = .next t) ∧
    (∃ t, exec (.reject badB) (scanAt badB 0) = .next t) ∧
    (∃ t, exec (.emit frameB) (scanAt frameB 0) = .next t) ∧
    (∃ t, exec (.push []) State.reset = .next t) ∧ (∃ t, exec .reset (scanAt frameB 3) = .next t) ∧
    (∃ t, exec (.extract headB []) (idleAt headB []) = .next t) :=
  ⟨⟨_, rfl⟩, ⟨_, rfl⟩, ⟨_, rfl⟩, ⟨_, rfl⟩, ⟨_, rfl⟩, ⟨_, rfl⟩, ⟨_, rfl⟩, ⟨_, rfl⟩,
    ⟨_, push_runs _ _ rfl (Nat.zero_le _)⟩, ⟨_, rfl⟩, ⟨_, extract_runs⟩⟩

/-- ValidMeansTheTrailerMatches (second clause): lengths 0 and 1. -/
theorem witness_valid_short :
    ([] : List Byte).length < 2 ∧ ([0x00#8] : List Byte).length < 2 := by decide

/-- EightBitAccumulatorSuffices: bytes in another order (V8e). -/
theorem witness_accumulator : [0x02#8, 0x01#8, 0x03#8].Perm [0x01#8, 0x02#8, 0x03#8] :=
  List.Perm.swap _ _ _

/-- SingleByteErrorsAreDetected: the first covered byte, the last, and both trailer bytes of B. -/
theorem witness_single_byte :
    valid block frameB = true ∧ 0 < frameB.length ∧ frameB[0]? ≠ some 0xF6#8 ∧
    4 < frameB.length ∧ frameB[4]? ≠ some 0x01#8 ∧ frameB[5]? ≠ some 0x5E#8 ∧
    6 < frameB.length ∧ frameB[6]? ≠ some 0x2D#8 := by decide

/-- TrailerExistsAndIsUnique, FrameFieldsStandAtTheirOffsets: payloads of 0 and of 255 bytes, frames. -/
theorem witness_payload :
    ([] : List Byte).length ≤ 255 ∧ bigPayload.length = 255 ∧
    isFrame block frameB = true ∧ isFrame block frameBig = true ∧ isFrame block frameQ = true := by
  decide +kernel

/-- ErrorsTheTrailerMisses: a collision that is none of the three, a permutation (V15), bit 7 (V16), one
bit position. -/
theorem witness_missed_errors :
    (sumFold [0x80#8, 0x80#8, 0x02#8] % 256 = sumFold [0x02#8] % 256 ∧
      xorFold [0x80#8, 0x80#8, 0x02#8] = xorFold [0x02#8]) ∧
    ((0x02#8 : Byte).toNat < 128 ∧ (0x7F#8 : Byte).toNat < 128) ∧
    ((0 < 8) ∧ (0x01#8 : Byte).getLsbD 0 = true ∧ (0x02#8 : Byte).getLsbD 0 = false) ∧
    ((7 < 8) ∧ (0x80#8 : Byte).getLsbD 7 = true ∧ (0x7F#8 : Byte).getLsbD 7 = false) ∧
    [0x02#8, 0x01#8].Perm [0x01#8, 0x02#8] := by decide

/-- DecodeTableRowByRow, DecodeOfEncodeIsTheOperation, EncodeOfDecodeIsAPrefix: under the block's own
configuration and another, a well-formed operation of every row and bytes that decode to it. -/
theorem witness_decode :
    block.WellFormed ∧ sample.WellFormed ∧
    (Instr.endPass.wf block && (Instr.skip 0x5A#8).wf block && (Instr.waith [0xF7#8]).wf block &&
      (Instr.waith shortHead).wf block && (Instr.waitb headB).wf block &&
      (Instr.waitb longTail).wf block && (Instr.reject badB).wf block &&
      (Instr.emit frameB).wf block && (Instr.emit frameBig).wf block) = true ∧
    decode block [] = .ok .endPass ∧ decode block [0x5A#8] = .ok (.skip 0x5A#8) ∧
    decode block shortHead = .ok (.waith shortHead) ∧ decode block headB = .ok (.waitb headB) ∧
    decode block (badB ++ headB) = .ok (.reject badB) ∧
    decode block (frameB ++ headB) = .ok (.emit frameB) :=
  ⟨block_wellFormed, test_sample_wellFormed, by decide +kernel, rfl, rfl, rfl, rfl, rfl, rfl⟩

/-- HexTextRoundTrip (second clause), WrittenHostLinesReadBack. -/
theorem witness_text :
    hexToBytes [] = .ok [] ∧ hexToBytes ['F', '7'] = .ok [0xF7#8] ∧
    writeHostLine .reset = some ['R', 'E', 'S', 'E', 'T'] ∧
    writeHostLine (.push []) = some ['P', 'U', 'S', 'H'] := ⟨rfl, rfl, rfl, rfl⟩

/-- StepRunsTheDecodedOperation, with an empty script, a `gap` and a chunk at its head. -/
theorem witness_step :
    ({ scanAt frameB 0 with host := [.gap] } : State).host.head? ≠ some .reset ∧
    ({ scanAt frameB 0 with host := [.push []] } : State).host.head? ≠ some .reset ∧
    (scanAt frameB 0).host.head? ≠ some .reset ∧
    (scanAt frameB 0).phase = .scan ∧ (scanAt frameB 0).k ≤ (scanAt frameB 0).w.length ∧
    decode block ((scanAt frameB 0).w.drop 0) = .ok (.emit frameB) :=
  ⟨by decide, by decide, by decide, rfl, Nat.zero_le _, rfl⟩

/-- StepServesTheHost, clause by clause. -/
theorem witness_host :
    ({ scanAt frameB 3 with host := [.reset, .gap] } : State).host = .reset :: [.gap] ∧
    (idleAt headB [.push [0x5F#8], .gap]).host = .push [0x5F#8] :: [.gap] ∧
    ([0x5F#8] : List Byte).length ≤ block.chunkMax ∧
    (idleAt headB [.gap, .reset]).host = .gap :: [.reset] ∧ (idleAt headB []).host = [] ∧
    (∃ t, step { scanAt frameB 0 with host := [.push []] } = .next t) :=
  ⟨rfl, rfl, one_le_chunkMax, rfl, rfl, ⟨_, rfl⟩⟩

/-- FetchedWordRunsNext: no bits, one byte, a whole frame. -/
theorem witness_fetched :
    decodeTableWord 0 0 = some .endPass ∧ decodeTableWord 8 0xF7 = some (.waith [0xF7#8]) ∧
    decodeTableWord 56 0x2C5F00811F36F7 = some (.emit frameB) := ⟨rfl, rfl, rfl⟩

/-- ResidualWaitsWithoutTimeout: three waits before a reset. -/
theorem witness_waits :
    (idleAt headB [.gap, .gap, .gap, .reset]).phase = .idle ∧
    (idleAt headB [.gap, .gap, .gap, .reset]).host = List.replicate 3 .gap ++ [.reset] ∧
    (idleAt headB []).host = [] := ⟨rfl, rfl, rfl⟩

/-- CursorMovesForwardWithinTheBuffer, EveryPassEnds, EveryStepKeepsTheInvariant,
EveryOperationKeepsTheInvariant, EveryByteIsAccountedFor: a pass over noise, a bad candidate and a frame. -/
theorem witness_cursor :
    (scanAt (0x5A#8 :: badB) 0).Inv ∧ (scanAt frameB 0).Inv ∧
    exec (.skip 0x5A#8) (scanAt (0x5A#8 :: badB) 0) =
      .next { scanAt (0x5A#8 :: badB) 1 with log := [.skip 0x5A#8] } ∧
    exec (.emit frameB) (scanAt frameB 0) = .next { scanAt frameB 7 with out := [⟨frameB⟩] } ∧
    exec .endPass (scanAt frameB 7) = .next State.reset ∧
    step (scanAt frameB 0) = .next { scanAt frameB 7 with out := [⟨frameB⟩] } ∧
    (scanAt frameB 7).Inv ∧ (scanAt frameB 0).host = [] ∧
    (Instr.skip 0x5A#8).continuesPass = true ∧ Instr.endPass.continuesPass = false :=
  ⟨scanAt_inv _ _ (by decide) (by decide), scanAt_inv _ _ (by decide) (by decide), rfl, rfl, rfl, rfl,
    scanAt_inv _ _ (by decide) (by decide), rfl, rfl, rfl⟩

/-- MachinePassIsExtract, ExtractOperationIsTheFunction: a pass that completes a header. -/
theorem witness_pass :
    (idleAt shortHead [.push [0x41#8]]).phase = .idle ∧
    (idleAt shortHead [.push [0x41#8]]).host = [.push [0x41#8]] ∧
    ([0x41#8] : List Byte).length ≤ block.chunkMax ∧
    shortHead.length + [0x41#8].length + 2 ≤ 7 := ⟨rfl, rfl, one_le_chunkMax, by decide⟩

/-- ScanLooksOnlyForward, PrefixStability: a cursor inside and at the end, an operation that goes on and
one that stops. -/
theorem witness_prefix :
    block.WellFormed ∧ 1 ≤ (0x5A#8 :: headB).length ∧
    decode block ((0x5A#8 :: headB).drop 0) = .ok (.skip 0x5A#8) ∧
    decode block ((0x5A#8 :: headB).drop 1) = .ok (.waitb headB) ∧
    decode block ((0x5A#8 :: headB).drop 6) = .ok .endPass ∧
    (Instr.waitb headB).continuesPass = false := ⟨block_wellFormed, by decide, rfl, rfl, rfl, rfl⟩

/-- ResidualIsBounded: an `EXTRACT`, a `WAITH` of 4, a `WAITB` of 261 bytes and an `END` that run. -/
theorem witness_residual_bound :
    (∃ t, exec (.extract headB []) (idleAt headB []) = .next t) ∧
    (∃ t, exec (.waith shortHead) (scanAt shortHead 0) = .next t) ∧
    decode block longTail = .ok (.waitb longTail) ∧
    (scanAt frameB 7).Inv ∧ exec .endPass (scanAt frameB 7) = .next State.reset :=
  ⟨⟨_, extract_runs⟩, ⟨_, rfl⟩,
    (by
      have h : (decode block longTail).toOption = some (.waitb longTail) := by decide +kernel
      cases hd : decode block longTail with
      | ok i => rw [hd] at h; exact congrArg _ (Option.some.inj h)
      | error e => rw [hd] at h; cases h),
    scanAt_inv _ _ (by decide) (by decide), rfl⟩

/-- ResidualHeadIsIncomplete: residuals that are not empty, and P4's, which holds B (R114). -/
theorem witness_residual_head :
    (extract block headB [0x5F#8]).2 ≠ [] ∧ (extract block [] [0xF7#8]).2 ≠ [] ∧
    extract block [] ([0xF7#8, 0x01#8, 0x02#8, 0x03#8, 0x10#8] ++ frameB) =
      ([], [0xF7#8, 0x01#8, 0x02#8, 0x03#8, 0x10#8] ++ frameB ++ []) :=
  ⟨by decide +kernel, by decide +kernel, rfl⟩

/-- SyncByteInsideAFrameDoesNoHarm: frame C cut after 1, 4, 5 and 9 bytes. -/
theorem witness_split_frame :
    isFrame block frameC = true ∧ frameC = frameC.take 1 ++ frameC.drop 1 ∧
    frameC = frameC.take 4 ++ frameC.drop 4 ∧ frameC = frameC.take 5 ++ frameC.drop 5 ∧
    frameC = frameC.take 9 ++ frameC.drop 9 ∧ frameC.take 1 ≠ [] ∧ frameC.drop 9 ≠ [] := by decide

/-- NoiseBeforeAFrameIsDropped: no noise, and two bytes of it. -/
theorem witness_noise :
    (∀ b ∈ ([] : List Byte), b ≠ block.sync) ∧ (∀ b ∈ [0x00#8, 0x5A#8], b ≠ block.sync) ∧
    isFrame block frameA = true := by decide

/-- RecoveryAfterNoise: the bad candidate of X8 before frame A; every operation before A goes on and none emits. -/
theorem witness_recovery :
    visited block (badB ++ frameA ++ []) = [0, 1, 2, 3, 4, 5, 6, 7, 17] ∧
    decode block ((badB ++ frameA ++ []).drop 0) = .ok (.reject badB) ∧
    [1, 2, 3, 4, 5, 6].map (fun k => decode block ((badB ++ frameA ++ []).drop k)) =
      badB.tail.map (fun b => .ok (.skip b)) ∧
    isFrame block frameA = true := ⟨rfl, rfl, rfl, rfl⟩

/-- CleanStreamIsExtractedExactly: a stream cut into single bytes (P5). -/
theorem witness_clean_stream :
    State.reset.Inv ∧
    (idleAt [] ((frameZ.map fun b => [b]).map .push)).Inv ∧
    (idleAt [] ((frameZ.map fun b => [b]).map .push)).phase = .idle ∧
    (∀ f ∈ [frameZ], isFrame block f = true) ∧
    (∀ c ∈ frameZ.map fun b => [b], c.length ≤ block.chunkMax) ∧
    (frameZ.map fun b => [b]).flatten = [frameZ].flatten ∧
    (∀ f ∈ [frameZ, frameZ], isFrame block f = true) :=
  ⟨idleAt_inv [] [] (by decide) (.inl rfl), idleAt_inv _ _ (by decide) (.inl rfl), rfl, by decide,
    (by
      intro c hc
      obtain ⟨b, _, rfl⟩ := List.mem_map.mp hc
      exact one_le_chunkMax),
    rfl, by decide⟩

/-- FramesAreDisjointSlicesInOrder: noise, two frames and a start of one, in three chunks. -/
theorem witness_slices :
    (extractAll block [] [[0x5A#8, 0xF7#8], frameZ.tail ++ frameB, [0xF7#8]]) =
      ([⟨frameZ⟩, ⟨frameB⟩], [0xF7#8]) ∧
    [[0x5A#8, 0xF7#8], frameZ.tail ++ frameB, [0xF7#8]].flatten =
      weave [[0x5A#8]] [⟨frameZ⟩, ⟨frameB⟩] ++ [0xF7#8] := ⟨rfl, rfl⟩

/-- NoConditionIsFatal: a script that pushes, resets in a pass, waits and pushes again. -/
theorem witness_not_fatal :
    (idleAt [] [.push [0xF7#8], .reset, .gap, .push []]).Inv ∧
    (idleAt [] [.push [0xF7#8], .reset, .gap, .push []]).HostWithinLimit :=
  ⟨idleAt_inv _ _ (by decide) (.inl rfl), by
    intro c hc
    have : c = [0xF7#8] ∨ c = [] := by simpa [idleAt] using hc
    rcases this with rfl | rfl
    · exact one_le_chunkMax
    · exact Nat.zero_le _⟩

/-- EveryReadIsInsideTheBuffer: a short tail at the end of the buffer, and a whole candidate. -/
theorem witness_reads :
    (scanAt (frameA ++ [0xF7#8]) 10).selected = .ok (.waith [0xF7#8]) ∧
    (scanAt frameA 0).selected = .ok (.emit frameA) ∧
    encode (.waith [0xF7#8]) = some [0xF7#8] ∧ encode (.emit frameA) = some frameA ∧
    block.hdrLen ≤ frameA.length := ⟨rfl, rfl, rfl, rfl, by decide⟩

/-- EveryByteIsAccountedFor: a push and each kind of taking, from states that meet the invariants. -/
theorem witness_account :
    (scanAt [0x5A#8] 0).Inv ∧ (scanAt badB 0).Inv ∧ (scanAt headB 0).Inv ∧ (idleAt shortHead []).Inv ∧
    (∃ t, exec (.reject badB) (scanAt badB 0) = .next t) ∧
    (∃ t, exec (.waitb headB) (scanAt headB 0) = .next t) ∧
    (∃ t, exec (.push [0x41#8]) (idleAt shortHead []) = .next t) :=
  ⟨scanAt_inv _ _ (by decide) (by decide), scanAt_inv _ _ (by decide) (by decide),
    scanAt_inv _ _ (by decide) (by decide), idleAt_inv _ _ (by decide) (by decide), ⟨_, rfl⟩, ⟨_, rfl⟩,
    ⟨_, push_runs _ _ rfl one_le_chunkMax⟩⟩

/-- OneMemoryRealisesBothBuffers: a memory of `BUF_CAP` bytes with B in it, and an `EMIT` that runs. -/
theorem witness_realisation :
    (scanAt frameB 0).Inv ∧
    (⟨frameB ++ List.replicate (block.bufCap - 7) 0x00#8, 7, 0, .scan⟩ : Buffer).Realises
      (scanAt frameB 0) ∧
    (∃ t, exec (.emit frameB) (scanAt frameB 0) = .next t) := by
  have h7 : 7 ≤ block.bufCap := Nat.le_trans (by decide) (Nat.le_add_right 261 _)
  refine ⟨scanAt_inv _ _ (by decide) (by decide), ⟨?_, h7, rfl, rfl, rfl, rfl⟩, ⟨_, rfl⟩⟩
  simp only [List.length_append, List.length_replicate]
  exact Nat.add_sub_cancel' h7

end Sys2Proof.Tests
end

section
/-! SUPPORT. What a decoded operation carries: it is well formed, and its bytes open the bytes decoded
(`30_encoding.md` R66). -/

namespace Sys2Proof

/-- The bytes that the length byte declares are a candidate (R14). -/
theorem isCandidate_take {cfg : Config} (hw : cfg.WellFormed) {r : List Byte} {n : Nat}
    (hsync : r.head? = some cfg.sync) (hd : declaredLen cfg r = some n) (hn : n ≤ r.length) :
    isCandidate cfg (r.take n) = true := by
  obtain ⟨hoff, -, -⟩ := lenOff_lt_declaredLen cfg hw r n hd
  have hpos : n ≠ 0 := Nat.ne_zero_of_lt hoff
  rw [isCandidate_iff, List.head?_take, if_neg hpos, List.length_take, Nat.min_eq_left hn]
  exact ⟨hsync, declaredLen_take cfg r n n hoff hd⟩

theorem DecodesTo.wf {cfg : Config} (hw : cfg.WellFormed) {r : List Byte} {i : Instr}
    (h : DecodesTo cfg r i) : i.wf cfg = true := by
  cases h with
  | endPass => rfl
  | skip b _ _ hb => exact (wf_skip_iff cfg b).2 hb
  | waith hsync hn => exact (wf_waith_iff cfg r).2 ⟨hsync, hn⟩
  | waitb n hsync hh hd hn => exact (wf_waitb_iff cfg r).2 ⟨hsync, hh, n, hd, hn⟩
  | reject n hsync _ hd hn hv =>
    exact (wf_reject_iff cfg _).2 ⟨isCandidate_take hw hsync hd hn, hv⟩
  | emit n hsync _ hd hn hv =>
    rw [wf_emit_iff, isFrame, isCandidate_take hw hsync hd hn, hv]; rfl

/-- The bytes an operation is decoded from are no more than the bytes present. -/
theorem DecodesTo.encode_length_le {cfg : Config} {r bs : List Byte} {i : Instr}
    (h : DecodesTo cfg r i) (hbs : encode i = some bs) : bs.length ≤ r.length := by
  cases h with
  | endPass => cases hbs; exact Nat.zero_le _
  | skip b t hr => cases hbs; subst hr; simp
  | waith => cases hbs; exact Nat.le_refl _
  | waitb => cases hbs; exact Nat.le_refl _
  | reject n => cases hbs; exact List.length_take_le' n r
  | emit n => cases hbs; exact List.length_take_le' n r

end Sys2Proof
end

section
/-! SUPPORT. Everything an operation that answers can have done, once: the scan operation selected, the
six scan operations, a whole pass of them, all eleven operations. -/

namespace Sys2Proof.Machine

/-! ### The scan operation selected (R101) -/

theorem State.phase_of_selected {s : State} {i : Instr} (h : s.selected = .ok i) : s.phase = .scan :=
  ((State.selected_eq_ok_iff s i).1 h).1

theorem State.decodesTo_of_selected {s : State} {i : Instr} (h : s.selected = .ok i) :
    DecodesTo block (s.w.drop s.k) i :=
  decode_cases _ _ _ ((State.selected_eq_ok_iff s i).1 h).2.2

theorem State.wf_of_selected {s : State} {i : Instr} (h : s.selected = .ok i) : i.wf block = true :=
  (State.decodesTo_of_selected h).wf block_wellFormed

/-- The bytes the selected operation is decoded from lie within the work buffer (R45). -/
theorem State.encode_within_of_selected {s : State} {i : Instr} {bs : List Byte}
    (h : s.selected = .ok i) (hbs : encode i = some bs) : s.k + bs.length ≤ s.w.length := by
  obtain ⟨-, hk, -⟩ := (State.selected_eq_ok_iff s i).1 h
  have hle := (State.decodesTo_of_selected h).encode_length_le hbs
  rw [List.length_drop] at hle
  omega

theorem State.isFrame_of_selected_emit {s : State} {f : List Byte} (h : s.selected = .ok (.emit f)) :
    isFrame block f = true :=
  (wf_emit_iff block f).1 (State.wf_of_selected h)

/-- `WAITH` and `WAITB` are decoded from the whole tail `W[K..]` (R103, R104). -/
theorem State.tail_of_selected_wait {s : State} {r : List Byte}
    (h : s.selected = .ok (.waith r) ∨ s.selected = .ok (.waitb r)) : r = s.w.drop s.k := by
  rcases h with h | h
  · cases State.decodesTo_of_selected h; rfl
  · cases State.decodesTo_of_selected h; rfl

/-! ### The six scan operations (R102 to R107) -/

/-- What each scan operation leaves, where it is selected. -/
inductive ScansTo (s : State) : Instr → State → Prop
  | endPass (hs : s.selected = .ok .endPass) : ScansTo s .endPass s.stopPass
  | skip (b : Byte) (hs : s.selected = .ok (.skip b)) :
      ScansTo s (.skip b) ((s.record [.skip b]).advance 1)
  | waith (r : List Byte) (hs : s.selected = .ok (.waith r)) :
      ScansTo s (.waith r) (s.setResidual r).stopPass
  | waitb (r : List Byte) (hs : s.selected = .ok (.waitb r)) :
      ScansTo s (.waitb r) (s.setResidual r).stopPass
  | reject (f : List Byte) (hs : s.selected = .ok (.reject f)) :
      ScansTo s (.reject f) ((s.record (rejectEvent f).toList).advance 1)
  | emit (f : List Byte) (hs : s.selected = .ok (.emit f)) :
      ScansTo s (.emit f) (((s.deliver f).setResidual []).advance f.length)

/-- A scan operation that answers has done its row of `ScansTo`. -/
theorem scansTo_of_exec {s t : State} {i : Instr} (hi : i.isScan = true) (h : exec i s = .next t) :
    ScansTo s i t := by
  cases i with
  | endPass => obtain ⟨hs, rfl⟩ := (execEnd_eq_next_iff s t).1 h; exact .endPass hs
  | skip b => obtain ⟨hs, rfl⟩ := (execSkip_eq_next_iff b s t).1 h; exact .skip b hs
  | waith r => obtain ⟨hs, rfl⟩ := (execWaith_eq_next_iff r s t).1 h; exact .waith r hs
  | waitb r => obtain ⟨hs, rfl⟩ := (execWaitb_eq_next_iff r s t).1 h; exact .waitb r hs
  | reject f => obtain ⟨hs, rfl⟩ := (execReject_eq_next_iff f s t).1 h; exact .reject f hs
  | emit f => obtain ⟨hs, rfl⟩ := (execEmit_eq_next_iff f s t).1 h; exact .emit f hs
  | trailer => cases hi
  | valid => cases hi
  | push => cases hi
  | reset => cases hi
  | extract => cases hi

theorem scansTo_of_scanStep {s t : State} (h : scanStep s = .next t) : ∃ i, ScansTo s i t := by
  cases hs : s.selected with
  | error e => rw [scanStep, hs] at h; cases h
  | ok i =>
    rw [scanStep_eq_exec s i hs] at h
    exact ⟨i, scansTo_of_exec (State.isScan_of_selected s i hs) h⟩

theorem ScansTo.selected {s t : State} {i : Instr} (h : ScansTo s i t) : s.selected = .ok i := by
  cases h <;> assumption

/-- A scan operation that goes on with the pass stays in `SCAN` and leaves the work buffer (R22, R24). -/
theorem ScansTo.continues {s t : State} {i : Instr} (h : ScansTo s i t)
    (hi : i.continuesPass = true) : t.phase = .scan ∧ t.w = s.w := by
  have hp := State.phase_of_selected h.selected
  cases h with
  | skip => exact ⟨hp, rfl⟩
  | reject => exact ⟨hp, rfl⟩
  | emit => exact ⟨hp, rfl⟩
  | endPass => cases hi
  | waith => cases hi
  | waitb => cases hi

/-- A scan operation that stops the pass leaves `IDLE`, an empty work buffer and the cursor at 0 (R22 to
R24). -/
theorem ScansTo.stops {s t : State} {i : Instr} (h : ScansTo s i t) (hi : i.continuesPass = false) :
    t.phase = .idle ∧ t.w = [] ∧ t.k = 0 := by
  cases h with
  | endPass => exact ⟨rfl, rfl, rfl⟩
  | waith => exact ⟨rfl, rfl, rfl⟩
  | waitb => exact ⟨rfl, rfl, rfl⟩
  | skip => cases hi
  | reject => cases hi
  | emit => cases hi

/-- The frames a scan operation appends to `OUT`. -/
def emitted : Instr → List Frame
  | .emit f => [⟨f⟩]
  | _ => []

theorem emitted_of_ne_emit {i : Instr} (h : ∀ f, i ≠ .emit f) : emitted i = [] := by
  cases i with
  | emit f => exact absurd rfl (h f)
  | _ => rfl

/-- `OUT` grows by a frame at `EMIT` and stays as it was at the other five (R25). -/
theorem ScansTo.out_eq {s t : State} {i : Instr} (h : ScansTo s i t) :
    t.out = s.out ++ emitted i := by
  cases h with
  | emit => rfl
  | endPass => exact (List.append_nil _).symm
  | skip => exact (List.append_nil _).symm
  | waith => exact (List.append_nil _).symm
  | waitb => exact (List.append_nil _).symm
  | reject => exact (List.append_nil _).symm

/-! ### A whole pass (R109, R110) -/

/-- What every scan operation keeps, a whole pass keeps. -/
theorem runPass_keeps (P : State → Prop) (hstep : ∀ s i t, P s → ScansTo s i t → P t) (n : Nat)
    (s t : State) (hs : P s) (h : runPass n s = .next t) : P t := by
  induction n generalizing s with
  | zero => cases h
  | succ n ih =>
    obtain ⟨u, hu, hrest⟩ := (andThen_eq_next_iff _ _ _).1 h
    obtain ⟨i, hi⟩ := scansTo_of_scanStep hu
    have hPu : P u := hstep s i u hs hi
    cases hp : u.phase with
    | idle => rw [hp] at hrest; cases hrest; exact hPu
    | scan => rw [hp] at hrest; exact ih u hPu hrest

/-- A pass that starts in `SCAN` leaves the cursor at 0: it ends in `IDLE`, where only an operation that
stops leads. -/
theorem runPass_cursor {n : Nat} {s t : State} (hs : s.phase = .scan) (h : runPass n s = .next t) :
    t.k = 0 := by
  refine runPass_keeps (fun t => t.phase = .idle → t.k = 0) ?_ n s t ?_ h (runPass_phase n s t h)
  · intro u i v _ hi hv
    cases hc : i.continuesPass with
    | true => rw [(hi.continues hc).1] at hv; cases hv
    | false => exact (hi.stops hc).2.2
  · intro hidle
    rw [hs] at hidle
    cases hidle

/-- A pass only appends to `OUT`. -/
theorem runPass_out {n : Nat} {s t : State} (h : runPass n s = .next t) :
    ∃ fs, t.out = s.out ++ fs := by
  refine runPass_keeps (fun t => ∃ fs, t.out = s.out ++ fs) ?_ n s t ⟨[], (List.append_nil _).symm⟩ h
  rintro u i v ⟨fs, hfs⟩ hi
  exact ⟨fs ++ emitted i, by rw [hi.out_eq, hfs, List.append_assoc]⟩

/-! ### All eleven operations -/

/-- What each operation leaves, where it answers. -/
inductive ExecsTo (s : State) : Instr → State → Prop
  | trailer (x : List Byte) :
      ExecsTo s (.trailer x) (s.answerWith (.trailer (trailer block x).1 (trailer block x).2))
  | valid (f : List Byte) : ExecsTo s (.valid f) (s.answerWith (.valid (valid block f)))
  | scan (i : Instr) (t : State) (h : ScansTo s i t) : ExecsTo s i t
  | push (c : List Byte) (hp : s.phase = .idle) (hc : c.length ≤ block.chunkMax) :
      ExecsTo s (.push c) (s.startPass c)
  | reset : ExecsTo s .reset s.clear
  | extract (c : List Byte) (u : State) (hp : s.phase = .idle) (hc : c.length ≤ block.chunkMax)
      (hu : runPass ((s.rb ++ c).length + 1) (s.startPass c) = .next u) :
      ExecsTo s (.extract s.rb c) (u.answerWith (passAnswer s u))

/-- If an operation answers a next state, one of these cases holds. -/
theorem exec_cases {i : Instr} {s t : State} (h : exec i s = .next t) : ExecsTo s i t := by
  cases i with
  | trailer x => cases h; exact .trailer x
  | valid f => cases h; exact .valid f
  | endPass => exact .scan _ t (scansTo_of_exec rfl h)
  | skip => exact .scan _ t (scansTo_of_exec rfl h)
  | waith => exact .scan _ t (scansTo_of_exec rfl h)
  | waitb => exact .scan _ t (scansTo_of_exec rfl h)
  | reject => exact .scan _ t (scansTo_of_exec rfl h)
  | emit => exact .scan _ t (scansTo_of_exec rfl h)
  | push c => obtain ⟨hp, hc, rfl⟩ := (execPush_eq_next_iff c s t).1 h; exact .push c hp hc
  | reset => obtain rfl := (execReset_eq_next_iff s t).1 h; exact .reset
  | extract rb c =>
    obtain ⟨hp, hc, rfl, u, hu, rfl⟩ := (execExtract_eq_next_iff rb c s t).1 h
    exact .extract c u hp hc hu

/-- A codec function changes the model's own field `answer` only (R80). -/
theorem exec_codec {i : Instr} {x : List Byte} {s t : State} (hi : i = .trailer x ∨ i = .valid x)
    (h : exec i s = .next t) : ∃ a, t = s.answerWith a := by
  rcases hi with rfl | rfl
  · cases h; exact ⟨_, rfl⟩
  · cases h; exact ⟨_, rfl⟩

end Sys2Proof.Machine
end

section
/-! SUPPORT. The invariants of `10_state.md` R32 are kept by each state update, then by each scan
operation, by each operation and by each step. -/

namespace Sys2Proof.Machine

/-- What R32 says of the residual alone (items 2, 5, 6). -/
structure ResidualForm (r : List Byte) : Prop where
  bounded : r.length ≤ block.rbMax
  opens : r ≠ [] → r.head? = some block.sync
  incomplete : ∀ n, block.hdrLen ≤ r.length → declaredLen block r = some n → r.length < n

theorem residualForm_nil : ResidualForm [] where
  bounded := Nat.zero_le _
  opens h := absurd rfl h
  incomplete _ h _ := absurd h (by decide)

theorem residualForm_of_waith {r : List Byte} (h : (Instr.waith r).wf block = true) :
    ResidualForm r := by
  obtain ⟨hsync, hn⟩ := (wf_waith_iff block r).1 h
  refine ⟨?_, fun _ => hsync, fun n hh _ => absurd hh (Nat.not_le.2 hn)⟩
  rw [block_hdrLen] at hn
  rw [block_rbMax]
  omega

theorem residualForm_of_waitb {r : List Byte} (h : (Instr.waitb r).wf block = true) :
    ResidualForm r := by
  obtain ⟨hsync, -, n, hd, hn⟩ := (wf_waitb_iff block r).1 h
  refine ⟨?_, fun _ => hsync, fun m _ hm => ?_⟩
  · obtain ⟨-, -, hmax⟩ := lenOff_lt_declaredLen block block_wellFormed r n hd
    rw [block_maxFrame] at hmax
    rw [block_rbMax]
    omega
  · rw [hd] at hm; cases hm; exact hn

namespace State.Inv

theorem residualForm {s : State} (h : s.Inv) : ResidualForm s.rb :=
  ⟨h.residual, h.opens, h.incomplete⟩

/-! ### Each state update -/

theorem record {s : State} (h : s.Inv) (es : List Event) : (s.record es).Inv :=
  ⟨h.cursor, h.capacity, h.residual, h.idle, h.scan, h.opens, h.incomplete, h.frames⟩

theorem answerWith {s : State} (h : s.Inv) (a : Answer) : (s.answerWith a).Inv :=
  ⟨h.cursor, h.capacity, h.residual, h.idle, h.scan, h.opens, h.incomplete, h.frames⟩

theorem withHost {s : State} (h : s.Inv) (l : List HostAct) : (s.withHost l).Inv :=
  ⟨h.cursor, h.capacity, h.residual, h.idle, h.scan, h.opens, h.incomplete, h.frames⟩

theorem advance {s : State} (h : s.Inv) (hp : s.phase = .scan) {n : Nat}
    (hn : s.k + n ≤ s.w.length) : (s.advance n).Inv where
  cursor := hn
  capacity := h.capacity
  residual := h.residual
  idle hi := by rw [State.advance_phase, hp] at hi; cases hi
  scan := h.scan
  opens := h.opens
  incomplete := h.incomplete
  frames := h.frames

/-- A frame may be delivered (R32 item 7). -/
theorem deliver {s : State} (h : s.Inv) {f : List Byte} (hf : isFrame block f = true) :
    (s.deliver f).Inv where
  cursor := h.cursor
  capacity := h.capacity
  residual := h.residual
  idle := h.idle
  scan := h.scan
  opens := h.opens
  incomplete := h.incomplete
  frames g hg := by
    rcases List.mem_append.1 hg with hg | hg
    · exact h.frames g hg
    · rw [List.mem_singleton.1 hg]; exact hf

theorem clearResidual {s : State} (h : s.Inv) : (s.setResidual []).Inv where
  cursor := h.cursor
  capacity := h.capacity
  residual := residualForm_nil.bounded
  idle := h.idle
  scan _ := rfl
  opens := residualForm_nil.opens
  incomplete := residualForm_nil.incomplete
  frames := h.frames

/-- A pass may stop with any residual of the right form. -/
theorem stopPass {s : State} (h : s.Inv) {r : List Byte} (hr : ResidualForm r) :
    (s.setResidual r).stopPass.Inv where
  cursor := Nat.le_refl _
  capacity := Nat.zero_le _
  residual := hr.bounded
  idle _ := ⟨rfl, rfl⟩
  scan hp := nomatch hp
  opens := hr.opens
  incomplete := hr.incomplete
  frames := h.frames

/-- A chunk within `CHUNK_MAX` fits behind any residual (R52). -/
theorem startPass {s : State} (h : s.Inv) {c : List Byte} (hc : c.length ≤ block.chunkMax) :
    (s.startPass c).Inv where
  cursor := Nat.zero_le _
  capacity := by
    have hr := h.residual
    rw [block_rbMax] at hr
    rw [State.startPass_w, List.length_append, block_bufCap]
    omega
  residual := residualForm_nil.bounded
  idle hp := nomatch hp
  scan _ := rfl
  opens := residualForm_nil.opens
  incomplete := residualForm_nil.incomplete
  frames := h.frames

theorem clear {s : State} (h : s.Inv) : s.clear.Inv :=
  h.stopPass residualForm_nil

theorem reset : State.reset.Inv where
  cursor := Nat.le_refl _
  capacity := Nat.zero_le _
  residual := residualForm_nil.bounded
  idle _ := ⟨rfl, rfl⟩
  scan _ := rfl
  opens := residualForm_nil.opens
  incomplete := residualForm_nil.incomplete
  frames _ hf := nomatch hf

/-! ### Each operation and each step -/

theorem of_scansTo {s t : State} {i : Instr} (h : s.Inv) (ht : ScansTo s i t) : t.Inv := by
  have hp := State.phase_of_selected ht.selected
  have hwf := State.wf_of_selected ht.selected
  cases ht with
  | endPass => exact h.stopPass h.residualForm
  | skip b hs => exact (h.record _).advance hp (State.encode_within_of_selected hs rfl)
  | waith r => exact h.stopPass (residualForm_of_waith hwf)
  | waitb r => exact h.stopPass (residualForm_of_waitb hwf)
  | reject f hs =>
    have hfit : s.k + f.length ≤ s.w.length := State.encode_within_of_selected hs rfl
    have hcand := ((wf_reject_iff block f).1 hwf).1
    have hlen := (lenOff_lt_declaredLen block block_wellFormed f _ ((isCandidate_iff _ f).1 hcand).2).1
    refine (h.record _).advance hp (Nat.le_trans (Nat.add_le_add_left ?_ _) hfit)
    omega
  | emit f hs =>
    have hfit : s.k + f.length ≤ s.w.length := State.encode_within_of_selected hs rfl
    exact ((h.deliver (State.isFrame_of_selected_emit hs)).clearResidual).advance hp hfit

theorem of_exec {s t : State} {i : Instr} (h : s.Inv) (ht : exec i s = .next t) : t.Inv := by
  cases exec_cases ht with
  | trailer => exact h.answerWith _
  | valid => exact h.answerWith _
  | scan _ _ hs => exact h.of_scansTo hs
  | push c _ hc => exact h.startPass hc
  | reset => exact h.clear
  | extract c u _ hc hu =>
    have hpass : u.Inv :=
      runPass_keeps State.Inv (fun _ _ _ hv hi => hv.of_scansTo hi) _ _ u (h.startPass hc) hu
    exact hpass.answerWith _

theorem of_step {s t : State} (h : s.Inv) (ht : step s = .next t) : t.Inv := by
  cases step_cases s t ht with
  | reset l => exact (h.withHost l).clear
  | push c l _ _ hc => exact (h.withHost l).startPass hc
  | wait => exact h.withHost _
  | scan i _ _ _ hexec => exact (h.withHost _).of_exec hexec

end State.Inv
end Sys2Proof.Machine
end

section
/-! The statements about reset and the invariants of `10_state.md` R32. -/

open Sys2Proof Sys2Proof.Machine

/-- Settles O1: the state after `RESET` is `State.clear`. -/
theorem resetLeavesTheSpecState : Obligations.ResetLeavesTheSpecState :=
  ⟨⟨rfl, rfl, rfl, rfl, rfl, rfl, rfl, rfl⟩, fun s =>
    ⟨s.clear, (execReset_eq_next_iff s _).2 rfl, State.clear_phase s, State.clear_rb s,
      State.clear_w s, State.clear_k s, State.clear_out s, State.clear_log s, rfl, rfl⟩⟩

/-- Settles O47. -/
theorem invariantHoldsAtReset : Obligations.InvariantHoldsAtReset := State.Inv.reset

/-- Settles O49, operation by operation; `EXTRACT` by induction on its scan operations. -/
theorem everyOperationKeepsTheInvariant : Obligations.EveryOperationKeepsTheInvariant :=
  ⟨State.Inv.reset, fun _ _ _ h ht => h.of_exec ht⟩

/-- Settles O48: a step is one operation, or the idle block's wait. -/
theorem everyStepKeepsTheInvariant : Obligations.EveryStepKeepsTheInvariant :=
  fun _ _ h ht => h.of_step ht

end

section
/-! SUPPORT. The realisation of `10_state.md` R35: what its memory holds after each of its moves, and
that each atomic operation on it realises that operation. -/

namespace Sys2Proof.Machine

namespace Buffer

/-- The bytes moved down are the filled bytes from the cursor on (R35). -/
theorem moveDown_filled (b : Buffer) (h : b.fill ≤ b.mem.length) :
    b.moveDown.filled = b.filled.drop b.k := by
  have hlen : ((b.mem.drop b.k).take (b.fill - b.k)).length = b.fill - b.k := by
    rw [List.length_take, List.length_drop]; omega
  rw [filled, filled, List.drop_take]
  exact List.take_left' hlen

theorem moveDown_size (b : Buffer) (h : b.fill ≤ b.mem.length) :
    b.moveDown.mem.length = b.mem.length := by
  simp only [moveDown, List.length_append, List.length_take, List.length_drop]
  omega

/-- The bytes pushed stand behind the filled bytes (R35). -/
theorem pushBytes_filled (b : Buffer) (c : List Byte) (h : b.fill ≤ b.mem.length) :
    (b.pushBytes c).filled = b.filled ++ c := by
  have hlen : (b.mem.take b.fill ++ c).length = b.fill + c.length := by
    rw [List.length_append, List.length_take, Nat.min_eq_left h]
  rw [filled, filled]
  exact List.take_left' hlen

theorem pushBytes_size (b : Buffer) (c : List Byte) (h : b.fill + c.length ≤ b.mem.length) :
    (b.pushBytes c).mem.length = b.mem.length := by
  simp only [pushBytes, List.length_append, List.length_take, List.length_drop]
  omega

namespace Realises

/-- The buffer sees of the state only phase, cursor, residual and work buffer. -/
theorem of_same {b : Buffer} {s t : State} (h : b.Realises s) (hp : t.phase = s.phase)
    (hk : t.k = s.k) (hrb : t.rb = s.rb) (hw : t.w = s.w) : b.Realises t :=
  ⟨h.size, h.fill, h.phase.trans hp.symm, h.cursor.trans hk.symm, h.residual.trans hrb.symm,
    h.work.trans hw.symm⟩

theorem fill_le_mem {b : Buffer} {s : State} (h : b.Realises s) : b.fill ≤ b.mem.length :=
  h.size ▸ h.fill

theorem filled_of_scan {b : Buffer} {s : State} (h : b.Realises s) (hp : s.phase = .scan) :
    b.filled = s.w := by
  rw [← h.work, Buffer.work, h.phase, hp]

theorem filled_of_idle {b : Buffer} {s : State} (h : b.Realises s) (hp : s.phase = .idle) :
    b.filled = s.rb := by
  rw [← h.residual, Buffer.residual, h.phase, hp]

/-- In `IDLE` the fill count is the residual's length, the status output of R34. -/
theorem fill_of_idle {b : Buffer} {s : State} (h : b.Realises s) (hp : s.phase = .idle) :
    b.fill = s.rb.length := by
  rw [← h.filled_of_idle hp, filled, List.length_take, Nat.min_eq_left h.fill_le_mem]

/-- The cursor moves in both alike; `SKIP` and `REJECT` move it by 1, `EMIT` by the frame's length. -/
theorem advance {b : Buffer} {s : State} (h : b.Realises s) (n : Nat) :
    ({ b with k := b.k + n } : Buffer).Realises (s.advance n) :=
  ⟨h.size, h.fill, h.phase, congrArg (· + n) h.cursor, h.residual, h.work⟩

/-- A stop or reset without residual. -/
theorem discard {b : Buffer} {s : State} (h : b.Realises s) : b.discard.Realises s.clear :=
  ⟨h.size, Nat.zero_le _, rfl, rfl, rfl, rfl⟩

/-- A stop that keeps the tail of the work buffer. -/
theorem moveDown {b : Buffer} {s : State} (h : b.Realises s) (hp : s.phase = .scan) :
    b.moveDown.Realises (s.setResidual (s.w.drop s.k)).stopPass where
  size := (b.moveDown_size h.fill_le_mem).trans h.size
  fill := Nat.le_trans (Nat.sub_le _ _) h.fill
  phase := rfl
  cursor := rfl
  residual := by
    change b.moveDown.filled = s.w.drop s.k
    rw [b.moveDown_filled h.fill_le_mem, h.filled_of_scan hp, h.cursor]
  work := rfl

/-- A chunk within `CHUNK_MAX` fits behind the residual (R8, R52). -/
theorem pushBytes {b : Buffer} {s : State} {c : List Byte} (h : b.Realises s) (hinv : s.Inv)
    (hp : s.phase = .idle) (hc : c.length ≤ block.chunkMax) :
    (b.pushBytes c).Realises (s.startPass c) := by
  have hfit : b.fill + c.length ≤ block.bufCap := by
    have hr := hinv.residual
    rw [block_rbMax, ← h.fill_of_idle hp] at hr
    rw [block_bufCap]
    omega
  refine ⟨?_, hfit, rfl, rfl, rfl, ?_⟩
  · rw [b.pushBytes_size c (h.size ▸ hfit), h.size]
  · change (b.pushBytes c).filled = s.rb ++ c
    rw [b.pushBytes_filled c h.fill_le_mem, h.filled_of_idle hp]

/-- Each scan operation. In `SCAN` the residual is empty (R32 item 4), so `END` and `EMIT` have none to
keep or to clear. -/
theorem of_scansTo {b : Buffer} {s t : State} {i : Instr} (h : b.Realises s) (hinv : s.Inv)
    (ht : ScansTo s i t) : (b.apply i).Realises t := by
  have hp := State.phase_of_selected ht.selected
  have hrb := hinv.scan hp
  cases ht with
  | endPass => exact h.discard.of_same rfl rfl hrb rfl
  | skip => exact (h.advance 1).of_same rfl rfl rfl rfl
  | waith r hs => rw [State.tail_of_selected_wait (.inl hs)]; exact h.moveDown hp
  | waitb r hs => rw [State.tail_of_selected_wait (.inr hs)]; exact h.moveDown hp
  | reject => exact (h.advance 1).of_same rfl rfl rfl rfl
  | emit f => exact (h.advance f.length).of_same rfl rfl hrb.symm rfl

end Realises

/-- A memory of `BUF_CAP` bytes with nothing in it. -/
def empty : Buffer := ⟨List.replicate block.bufCap 0#8, 0, 0, .idle⟩

theorem empty_realises_reset : empty.Realises State.reset :=
  ⟨List.length_replicate, Nat.zero_le _, rfl, rfl, rfl, rfl⟩

end Buffer
end Sys2Proof.Machine
end

section
/-! The statement about the realisation of `10_state.md` R35. -/

open Sys2Proof Sys2Proof.Machine

/-- Settles O57: a simulation, one commuting square per atomic operation. -/
theorem oneMemoryRealisesBothBuffers : Obligations.OneMemoryRealisesBothBuffers := by
  refine ⟨⟨Buffer.empty, Buffer.empty_realises_reset⟩, fun b s t i hinv h hne ht => ?_⟩
  cases exec_cases ht with
  | trailer => exact h.of_same rfl rfl rfl rfl
  | valid => exact h.of_same rfl rfl rfl rfl
  | scan _ _ hs => exact h.of_scansTo hinv hs
  | push c hp hc => exact h.pushBytes hinv hp hc
  | reset => exact h.discard
  | extract c => exact absurd rfl (hne s.rb c)

end

section
/-! The statements about how each operation writes output trace, phase, cursor and buffers (`10_state.md`
R21 to R25). -/

open Sys2Proof Sys2Proof.Machine

/-- Settles O51. -/
theorem outputOnlyGrowsByEmit : Obligations.OutputOnlyGrowsByEmit := by
  intro i s t h
  have hsame : s.out = s.out ++ [] := (List.append_nil _).symm
  cases exec_cases h with
  | scan _ _ hs =>
    refine ⟨emitted i, hs.out_eq, ?_, fun hne _ => emitted_of_ne_emit hne⟩
    rintro f rfl
    rfl
  | trailer => exact ⟨[], hsame, nofun, fun _ _ => rfl⟩
  | valid => exact ⟨[], hsame, nofun, fun _ _ => rfl⟩
  | push => exact ⟨[], hsame, nofun, fun _ _ => rfl⟩
  | reset => exact ⟨[], hsame, nofun, fun _ _ => rfl⟩
  | extract c u _ _ hu =>
    obtain ⟨fs, hfs⟩ := runPass_out hu
    exact ⟨fs, hfs, nofun, fun _ hne => absurd rfl (hne s.rb c)⟩

/-- Settles O52. -/
theorem phaseMovesAsTheSpecSays : Obligations.PhaseMovesAsTheSpecSays := by
  intro i s t h
  refine ⟨?push, fun hi => ?before, fun hi hc => ?goesOn, fun hi hc => ?stops, ?reset, ?codec,
    ?extract⟩
  case push =>
    rintro c rfl
    obtain ⟨hp, -, rfl⟩ := (execPush_eq_next_iff c s t).1 h
    exact ⟨hp, State.startPass_phase s c⟩
  case before => exact State.phase_of_selected (scansTo_of_exec hi h).selected
  case goesOn => exact ((scansTo_of_exec hi h).continues hc).1
  case stops => exact ((scansTo_of_exec hi h).stops hc).1
  case reset =>
    rintro rfl
    obtain rfl := (execReset_eq_next_iff s t).1 h
    exact State.clear_phase s
  case codec =>
    intro x hx
    obtain ⟨a, rfl⟩ := exec_codec hx h
    exact State.answerWith_phase s a
  case extract =>
    rintro rb c rfl
    obtain ⟨hp, -, -, u, hu, rfl⟩ := (execExtract_eq_next_iff rb c s t).1 h
    exact ⟨hp, runPass_phase _ _ u hu⟩

/-- Settles O53. -/
theorem cursorChangesInOneWay : Obligations.CursorChangesInOneWay := by
  intro i s t h
  refine ⟨?byOne, ?emit, ?zero, ?codec⟩
  case byOne =>
    rintro (⟨b, rfl⟩ | ⟨f, rfl⟩)
    · obtain ⟨-, rfl⟩ := (execSkip_eq_next_iff b s t).1 h; rfl
    · obtain ⟨-, rfl⟩ := (execReject_eq_next_iff f s t).1 h; rfl
  case emit =>
    rintro f rfl
    obtain ⟨hs, rfl⟩ := (execEmit_eq_next_iff f s t).1 h
    obtain ⟨-, hd, -⟩ := (isFrame_iff block f).1 (State.isFrame_of_selected_emit hs)
    obtain ⟨-, hmin, hmax⟩ := lenOff_lt_declaredLen block block_wellFormed f _ hd
    exact ⟨rfl, hmin, hmax⟩
  case zero =>
    rintro (rfl | ⟨r, rfl⟩ | ⟨r, rfl⟩ | ⟨c, rfl⟩ | rfl | ⟨rb, c, rfl⟩)
    · exact ((scansTo_of_exec rfl h).stops rfl).2.2
    · exact ((scansTo_of_exec rfl h).stops rfl).2.2
    · exact ((scansTo_of_exec rfl h).stops rfl).2.2
    · obtain ⟨-, -, rfl⟩ := (execPush_eq_next_iff c s t).1 h; rfl
    · obtain rfl := (execReset_eq_next_iff s t).1 h; rfl
    · obtain ⟨-, -, -, u, hu, rfl⟩ := (execExtract_eq_next_iff rb c s t).1 h
      exact (State.answerWith_k u _).trans (runPass_cursor (State.startPass_phase s c) hu)
  case codec =>
    intro x hx
    obtain ⟨a, rfl⟩ := exec_codec hx h
    exact State.answerWith_k s a

/-- Settles O54. -/
theorem buffersAreWrittenWhole : Obligations.BuffersAreWrittenWhole := by
  intro i s t h
  refine ⟨fun hi hc => ?goesOn, fun hi hc => ?stops, ?push, ?waits, ?emptied, ?kept⟩
  case goesOn => exact ((scansTo_of_exec hi h).continues hc).2
  case stops => exact ((scansTo_of_exec hi h).stops hc).2.1
  case push =>
    rintro c rfl
    obtain ⟨-, -, rfl⟩ := (execPush_eq_next_iff c s t).1 h
    exact ⟨State.startPass_w s c, State.startPass_rb s c⟩
  case waits =>
    rintro r (rfl | rfl)
    · obtain ⟨hs, rfl⟩ := (execWaith_eq_next_iff r s t).1 h
      exact State.tail_of_selected_wait (.inl hs)
    · obtain ⟨hs, rfl⟩ := (execWaitb_eq_next_iff r s t).1 h
      exact State.tail_of_selected_wait (.inr hs)
  case emptied =>
    rintro (⟨f, rfl⟩ | rfl)
    · obtain ⟨-, rfl⟩ := (execEmit_eq_next_iff f s t).1 h; rfl
    · obtain rfl := (execReset_eq_next_iff s t).1 h; rfl
  case kept =>
    rintro (rfl | ⟨b, rfl⟩ | ⟨f, rfl⟩ | ⟨x, hx⟩)
    · obtain ⟨-, rfl⟩ := (execEnd_eq_next_iff s t).1 h; rfl
    · obtain ⟨-, rfl⟩ := (execSkip_eq_next_iff b s t).1 h; rfl
    · obtain ⟨-, rfl⟩ := (execReject_eq_next_iff f s t).1 h; rfl
    · obtain ⟨a, rfl⟩ := exec_codec hx h; exact State.answerWith_rb s a

end

section
/-! SUPPORT. The bytes that decode and cursor pass over: what an operation is decoded from opens the bytes
at the cursor, and so does what it takes from them (`20_memory.md` R45, R54). -/

namespace Sys2Proof

/-- The bytes an operation is decoded from open the bytes present (R75). -/
theorem DecodesTo.encode_prefix {cfg : Config} {r bs : List Byte} {i : Instr}
    (h : DecodesTo cfg r i) (hbs : encode i = some bs) : bs <+: r := by
  cases h with
  | endPass => cases hbs; exact List.nil_prefix
  | skip b t hr => cases hbs; subst hr; exact ⟨t, rfl⟩
  | waith => cases hbs; exact List.prefix_refl _
  | waitb => cases hbs; exact List.prefix_refl _
  | reject n => cases hbs; exact List.take_prefix n r
  | emit n => cases hbs; exact List.take_prefix n r

/-- The bytes a scan operation takes from the bytes held: `SKIP` drops its byte, `REJECT` the sync byte
only, `EMIT` hands over the frame (R102, R105, R106). -/
def taken (cfg : Config) : Instr → List Byte
  | .skip b => [b]
  | .reject _ => [cfg.sync]
  | .emit f => f
  | _ => []

theorem taken_of_stops {cfg : Config} {i : Instr} (hi : i.continuesPass = false) :
    taken cfg i = [] := by
  cases i with
  | skip => cases hi
  | reject => cases hi
  | emit => cases hi
  | _ => rfl

theorem DecodesTo.taken_prefix {cfg : Config} {r : List Byte} {i : Instr} (h : DecodesTo cfg r i) :
    taken cfg i <+: r := by
  cases h with
  | skip b t hr => subst hr; exact ⟨t, rfl⟩
  | reject n hsync =>
    obtain ⟨t, rfl⟩ := List.head?_eq_some_iff.1 hsync
    exact ⟨t, rfl⟩
  | emit n => exact List.take_prefix n r
  | endPass => exact List.nil_prefix
  | waith => exact List.nil_prefix
  | waitb => exact List.nil_prefix

/-- What is taken and what is left are the bytes present. -/
theorem DecodesTo.taken_append_drop {cfg : Config} {w : List Byte} {k : Nat} {i : Instr}
    (h : DecodesTo cfg (w.drop k) i) :
    taken cfg i ++ w.drop (k + (taken cfg i).length) = w.drop k := by
  rw [← List.drop_drop]
  exact List.prefix_iff_eq_append.1 h.taken_prefix

/-- An operation that goes on with the pass takes at least one byte (R109). -/
theorem DecodesTo.taken_pos {cfg : Config} (hw : cfg.WellFormed) {r : List Byte} {i : Instr}
    (h : DecodesTo cfg r i) (hi : i.continuesPass = true) : 0 < (taken cfg i).length := by
  cases h with
  | skip => exact Nat.one_pos
  | reject => exact Nat.one_pos
  | emit n _ _ hd hn =>
    obtain ⟨hoff, -, -⟩ := lenOff_lt_declaredLen cfg hw r n hd
    change 0 < (r.take n).length
    rw [List.length_take, Nat.min_eq_left hn]
    exact Nat.zero_lt_of_lt hoff
  | endPass => cases hi
  | waith => cases hi
  | waitb => cases hi

/-- Under a well-formed configuration every byte sequence is decoded (R66). -/
theorem exists_decode {cfg : Config} (hw : cfg.WellFormed) (r : List Byte) :
    ∃ i, decode cfg r = .ok i := by
  cases r with
  | nil => exact ⟨_, rfl⟩
  | cons b t =>
    unfold decode
    dsimp only
    split
    · exact ⟨_, rfl⟩
    · split
      · exact ⟨_, rfl⟩
      · rename_i hn
        obtain ⟨n, hd⟩ := exists_declaredLen cfg hw (b :: t) (Nat.not_lt.1 hn)
        rw [hd]
        dsimp only
        split
        · exact ⟨_, rfl⟩
        · split <;> exact ⟨_, rfl⟩

end Sys2Proof
end

section
/-! SUPPORT. The pass as a function (`41_frame_extractor.md` R110), operation by operation. -/

namespace Sys2Proof.Machine

/-- The pass at a complete header: the candidate waits, is emitted, or loses its sync byte. -/
theorem scan_of_header {cfg : Config} (hw : cfg.WellFormed) {w : List Byte} {k n : Nat}
    (hsync : (w.drop k).head? = some cfg.sync) (hh : cfg.hdrLen ≤ (w.drop k).length)
    (hd : declaredLen cfg (w.drop k) = some n) :
    scan cfg w k =
      if (w.drop k).length < n then ([], w.drop k)
      else if valid cfg ((w.drop k).take n) then
        (⟨(w.drop k).take n⟩ :: (scan cfg w (k + n)).1, (scan cfg w (k + n)).2)
      else scan cfg w (k + 1) := by
  obtain ⟨len, hl, rfl⟩ := (declaredLen_eq_some_iff cfg _ n).1 hd
  obtain ⟨t, hr⟩ := List.head?_eq_some_iff.1 hsync
  rw [scan_eq cfg hw w k]
  rw [hr] at hh hl ⊢
  dsimp only
  rw [if_neg (not_not.2 rfl), if_neg (Nat.not_lt.2 hh), hl]
  rfl

/-- Where an operation goes on, the pass is what it emits and then the pass after the bytes taken. -/
theorem scan_of_continues {cfg : Config} (hw : cfg.WellFormed) {w : List Byte} {k : Nat} {i : Instr}
    (h : DecodesTo cfg (w.drop k) i) (hi : i.continuesPass = true) :
    scan cfg w k =
      (emitted i ++ (scan cfg w (k + (taken cfg i).length)).1,
        (scan cfg w (k + (taken cfg i).length)).2) := by
  cases h with
  | skip b t hr hb => rw [scan_eq cfg hw w k, hr]; dsimp only; rw [if_pos hb]; rfl
  | reject n hsync hh hd hn hv =>
    rw [scan_of_header hw hsync hh hd, if_neg (Nat.not_lt.2 hn), hv]; rfl
  | emit n hsync hh hd hn hv =>
    have hlen : (taken cfg (.emit ((w.drop k).take n))).length = n := List.length_take_of_le hn
    rw [scan_of_header hw hsync hh hd, if_neg (Nat.not_lt.2 hn), if_pos hv, hlen]; rfl
  | endPass => cases hi
  | waith => cases hi
  | waitb => cases hi

/-- Where an operation stops the pass, no frame follows and the bytes at the cursor are the residual. -/
theorem scan_of_stops {cfg : Config} (hw : cfg.WellFormed) {w : List Byte} {k : Nat} {i : Instr}
    (h : DecodesTo cfg (w.drop k) i) (hi : i.continuesPass = false) :
    scan cfg w k = ([], w.drop k) := by
  cases h with
  | endPass hr => rw [scan_eq cfg hw w k, hr]
  | waith hsync hn =>
    obtain ⟨t, hr⟩ := List.head?_eq_some_iff.1 hsync
    rw [scan_eq cfg hw w k]
    rw [hr] at hn ⊢
    dsimp only
    rw [if_neg (not_not.2 rfl), if_pos hn]
  | waitb n hsync hh hd hn => rw [scan_of_header hw hsync hh hd, if_pos hn]
  | skip => cases hi
  | reject => cases hi
  | emit => cases hi

/-- Induction along a pass, backwards from the operation that stops it (R109): a property of cursor values
that holds where a pass stops, and before an operation if it holds after it, holds everywhere. -/
theorem scan_induction {cfg : Config} (hw : cfg.WellFormed) {w : List Byte} {P : Nat → Prop}
    (stops : ∀ k i, DecodesTo cfg (w.drop k) i → i.continuesPass = false → P k)
    (goesOn : ∀ k i, DecodesTo cfg (w.drop k) i → i.continuesPass = true →
      P (k + (taken cfg i).length) → P k) (k : Nat) : P k := by
  induction hm : w.length - k using Nat.strong_induction_on generalizing k with
  | _ m ih =>
    obtain ⟨i, hdec⟩ := exists_decode hw (w.drop k)
    have h := decode_cases cfg _ i hdec
    cases hi : i.continuesPass with
    | false => exact stops k i h hi
    | true =>
      have hpos := h.taken_pos hw hi
      have hle := h.taken_prefix.length_le
      rw [List.length_drop] at hle
      exact goesOn k i h hi (ih _ (by omega) _ rfl)

end Sys2Proof.Machine
end

section
/-! SUPPORT. How the frames of a pass lie in its bytes (`20_memory.md` R53). -/

namespace Sys2Proof.Machine

/-! ### `weave`: gaps and frames in turn -/

theorem weave_nil (gaps : List (List Byte)) : weave gaps [] = gaps.flatten := by
  cases gaps <;> rfl

/-- A gap before the first frame may be longer. -/
theorem exists_weave_gap (g : List Byte) (gaps : List (List Byte)) (fs : List Frame) :
    ∃ gaps', weave gaps' fs = g ++ weave gaps fs := by
  cases fs with
  | nil => exact ⟨g :: gaps, by rw [weave_nil, weave_nil, List.flatten_cons]⟩
  | cons f fs =>
    cases gaps with
    | nil => exact ⟨[g], rfl⟩
    | cons g' gaps => exact ⟨(g ++ g') :: gaps, List.append_assoc g g' _⟩

/-- What stands before the rest of a weave that begins with a frame: a gap and the frame. -/
theorem exists_weave_cons (gaps : List (List Byte)) (f : Frame) (fs : List Frame) :
    ∃ g gaps', weave gaps (f :: fs) = g ++ (f.raw ++ weave gaps' fs) := by
  cases gaps with
  | nil => exact ⟨[], [], rfl⟩
  | cons g gaps => exact ⟨g, gaps, rfl⟩

/-- Two weaves one after the other are a weave: the gaps where they meet become one. -/
theorem exists_weave_append (gaps gaps' : List (List Byte)) (fs fs' : List Frame) :
    ∃ gs, weave gs (fs ++ fs') = weave gaps fs ++ weave gaps' fs' := by
  induction fs generalizing gaps with
  | nil => rw [weave_nil]; exact exists_weave_gap _ gaps' fs'
  | cons f fs ih =>
    obtain ⟨g, rest, hrest⟩ := exists_weave_cons gaps f fs
    obtain ⟨gs, hgs⟩ := ih rest
    refine ⟨g :: gs, ?_⟩
    change g ++ (f.raw ++ weave gs (fs ++ fs')) = _
    rw [hgs, hrest]
    simp only [List.append_assoc]

/-! ### Frames cut out of a byte sequence -/

/-- A pair of frames and residual, as `scan`, `extract` and `extractAll` return it, cuts a byte sequence:
the frames lie in it in order and disjoint, the residual is its end, and each frame is one (R53). -/
structure Cuts (cfg : Config) (bytes : List Byte) (result : List Frame × List Byte) : Prop where
  slices : ∃ gaps, bytes = weave gaps result.1 ++ result.2
  frames : ∀ f ∈ result.1, isFrame cfg f.raw = true

namespace Cuts

theorem residualOnly (cfg : Config) (r : List Byte) : Cuts cfg r ([], r) where
  slices := ⟨[], rfl⟩
  frames := nofun

/-- Bytes dropped before the rest. -/
theorem gap {cfg : Config} {b : List Byte} {p : List Frame × List Byte} (h : Cuts cfg b p)
    (g : List Byte) : Cuts cfg (g ++ b) p where
  slices := by
    obtain ⟨gaps, hgaps⟩ := h.slices
    obtain ⟨gaps', hgaps'⟩ := exists_weave_gap g gaps p.1
    exact ⟨gaps', by rw [hgaps', hgaps, List.append_assoc]⟩
  frames := h.frames

/-- A frame before the rest. -/
theorem frame {cfg : Config} {b f : List Byte} {p : List Frame × List Byte} (h : Cuts cfg b p)
    (hf : isFrame cfg f = true) : Cuts cfg (f ++ b) (⟨f⟩ :: p.1, p.2) where
  slices := by
    obtain ⟨gaps, hgaps⟩ := h.slices
    refine ⟨[] :: gaps, ?_⟩
    change f ++ b = (f ++ weave gaps p.1) ++ p.2
    rw [List.append_assoc, ← hgaps]
  frames := List.forall_mem_cons.2 ⟨hf, h.frames⟩

/-- The bytes an operation takes before the rest: a frame at `EMIT`, dropped bytes else. -/
theorem prepend_taken {cfg : Config} (hw : cfg.WellFormed) {r b : List Byte} {i : Instr}
    {p : List Frame × List Byte} (hi : DecodesTo cfg r i) (h : Cuts cfg b p) :
    Cuts cfg (taken cfg i ++ b) (emitted i ++ p.1, p.2) := by
  have hwf := hi.wf hw
  cases hi with
  | emit n => exact h.frame ((wf_emit_iff cfg _).1 hwf)
  | endPass => exact h
  | skip b => exact h.gap [b]
  | waith => exact h
  | waitb => exact h
  | reject => exact h.gap [cfg.sync]

/-- A second chunk behind the residual of the first (R115). -/
theorem append {cfg : Config} {b c : List Byte} {p q : List Frame × List Byte} (hp : Cuts cfg b p)
    (hq : Cuts cfg (p.2 ++ c) q) : Cuts cfg (b ++ c) (p.1 ++ q.1, q.2) where
  slices := by
    obtain ⟨gaps, hb⟩ := hp.slices
    obtain ⟨gaps', hc⟩ := hq.slices
    obtain ⟨gs, hgs⟩ := exists_weave_append gaps gaps' p.1 q.1
    refine ⟨gs, ?_⟩
    calc b ++ c = weave gaps p.1 ++ (p.2 ++ c) := by rw [hb, List.append_assoc]
      _ = weave gs (p.1 ++ q.1) ++ q.2 := by rw [hc, hgs, List.append_assoc]
  frames f hf := (List.mem_append.1 hf).elim (hp.frames f) (hq.frames f)

end Cuts

/-- A pass cuts the bytes at and after its cursor. -/
theorem scan_cuts {cfg : Config} (hw : cfg.WellFormed) (w : List Byte) (k : Nat) :
    Cuts cfg (w.drop k) (scan cfg w k) := by
  induction k using scan_induction (w := w) hw with
  | stops k i h hi =>
    rw [scan_of_stops hw h hi]
    exact Cuts.residualOnly cfg _
  | goesOn k i h hi ih =>
    rw [scan_of_continues hw h hi, ← h.taken_append_drop]
    exact ih.prepend_taken hw h

theorem extract_cuts {cfg : Config} (hw : cfg.WellFormed) (rb c : List Byte) :
    Cuts cfg (rb ++ c) (extract cfg rb c) :=
  scan_cuts hw (rb ++ c) 0

/-- Successive passes cut the residual they start from followed by all the chunks. -/
theorem extractAll_cuts {cfg : Config} (hw : cfg.WellFormed) (rb : List Byte) (cs : List (List Byte)) :
    Cuts cfg (rb ++ cs.flatten) (extractAll cfg rb cs) := by
  induction cs generalizing rb with
  | nil =>
    rw [List.flatten_nil, List.append_nil]
    exact Cuts.residualOnly cfg rb
  | cons c cs ih =>
    rw [List.flatten_cons, ← List.append_assoc]
    exact (extract_cuts hw rb c).append (ih _)

end Sys2Proof.Machine
end

section
/-! SUPPORT. The reads of a scan operation (`20_memory.md` R45, `41_frame_extractor.md` R120). -/

namespace Sys2Proof.Machine

/-- A read of one byte inside a buffer gives that byte. -/
theorem memRead_byte {m : List Byte} {a : Nat} {b : Byte} (h : m[a]? = some b) :
    memRead m a 1 = some [b] := by
  obtain ⟨ha, rfl⟩ := List.getElem?_eq_some_iff.1 h
  refine (memRead_eq_some_iff m a 1 _).2 ⟨ha, ?_⟩
  rw [List.drop_eq_getElem_cons ha]
  rfl

/-- The selected operation is decoded from the bytes at the cursor. -/
theorem State.encode_prefix_of_selected {s : State} {i : Instr} {bs : List Byte}
    (h : s.selected = .ok i) (hbs : encode i = some bs) : bs <+: s.w.drop s.k :=
  (State.decodesTo_of_selected h).encode_prefix hbs

/-- The selected operation's bytes, read as one slice from the cursor on. -/
theorem State.memRead_of_selected {s : State} {i : Instr} {bs : List Byte}
    (h : s.selected = .ok i) (hbs : encode i = some bs) :
    memRead s.w s.k bs.length = some bs :=
  (memRead_eq_some_iff _ _ _ _).2 ⟨State.encode_within_of_selected h hbs,
    (List.prefix_iff_eq_take.1 (State.encode_prefix_of_selected h hbs)).symm⟩

/-- The selected operation's byte at an offset, read at that offset from the cursor. -/
theorem State.memRead_byte_of_selected {s : State} {i : Instr} {bs : List Byte} {j : Nat} {b : Byte}
    (h : s.selected = .ok i) (hbs : encode i = some bs) (hj : bs[j]? = some b) :
    memRead s.w (s.k + j) 1 = some [b] := by
  obtain ⟨t, ht⟩ := State.encode_prefix_of_selected h hbs
  have hlt : j < bs.length := (List.getElem?_eq_some_iff.1 hj).1
  refine memRead_byte ?_
  rw [← List.getElem?_drop, ← ht, List.getElem?_append_left hlt, hj]

end Sys2Proof.Machine
end

section
/-! SUPPORT. The account of the stream's bytes (`20_memory.md` R54): what each scan operation takes from
the bytes held, it drops or emits. -/

namespace Sys2Proof.Machine

theorem State.held_of_scan {s : State} (hp : s.phase = .scan) : s.held = s.w.drop s.k := by
  rw [State.held, hp]

theorem State.held_of_idle {s : State} (hp : s.phase = .idle) : s.held = s.rb := by
  rw [State.held, hp]

/-- A candidate stores a trailer, so its rejection is logged (R142). -/
theorem exists_rejectEvent {f : List Byte} (hf : isCandidate block f = true) :
    ∃ e, rejectEvent f = some e := by
  obtain ⟨-, hd⟩ := (isCandidate_iff block f).1 hf
  obtain ⟨-, hmin, -⟩ := lenOff_lt_declaredLen block block_wellFormed f _ hd
  obtain ⟨h, x, a, rfl⟩ := exists_trailer_split f (Nat.le_of_add_left_le hmin)
  exact ⟨_, by rw [rejectEvent, storedTrailer_append block rfl]; rfl⟩

/-- A scan operation that goes on with the pass moves the cursor past the bytes it takes (R119). -/
theorem ScansTo.cursor_eq {s t : State} {i : Instr} (h : ScansTo s i t)
    (hi : i.continuesPass = true) : t.k = s.k + (taken block i).length := by
  cases h with
  | skip => rfl
  | reject => rfl
  | emit => rfl
  | endPass => cases hi
  | waith => cases hi
  | waitb => cases hi

/-- A scan operation that stops the pass leaves the bytes at the cursor as residual; at `END` there are
none, and there was no residual (R32 item 4). -/
theorem ScansTo.residual_of_stops {s t : State} {i : Instr} (h : ScansTo s i t) (hinv : s.Inv)
    (hi : i.continuesPass = false) : t.rb = s.w.drop s.k := by
  cases h with
  | endPass hs =>
    cases State.decodesTo_of_selected hs with
    | endPass hnil => rw [hnil]; exact hinv.scan (State.phase_of_selected hs)
  | waith r hs => exact State.tail_of_selected_wait (.inl hs)
  | waitb r hs => exact State.tail_of_selected_wait (.inr hs)
  | skip => cases hi
  | reject => cases hi
  | emit => cases hi

/-- A scan operation takes its bytes from the front of the bytes held. -/
theorem ScansTo.held_eq {s t : State} {i : Instr} (h : ScansTo s i t) (hinv : s.Inv) :
    s.held = taken block i ++ t.held := by
  rw [State.held_of_scan (State.phase_of_selected h.selected)]
  cases hi : i.continuesPass with
  | true =>
    obtain ⟨hp, hw⟩ := h.continues hi
    rw [State.held_of_scan hp, hw, h.cursor_eq hi]
    exact (State.decodesTo_of_selected h.selected).taken_append_drop.symm
  | false =>
    rw [State.held_of_idle (h.stops hi).1, h.residual_of_stops hinv hi, taken_of_stops hi,
      List.nil_append]

/-- The stream bytes that have left the block: inside emitted frames, or dropped, one per event of
`LOG`. -/
def State.gone (s : State) : Nat := (s.out.map fun f => f.raw.length).sum + s.log.length

theorem State.accounted_eq (s : State) : s.accounted = s.gone + s.held.length := rfl

/-- What a scan operation takes, it drops or emits. -/
theorem ScansTo.gone_eq {s t : State} {i : Instr} (h : ScansTo s i t) :
    t.gone = s.gone + (taken block i).length := by
  cases h with
  | endPass => rfl
  | waith => rfl
  | waitb => rfl
  | skip b => simp [State.gone, taken, Nat.add_assoc]
  | reject f hs =>
    obtain ⟨hcand, -⟩ := (wf_reject_iff block f).1 (State.wf_of_selected hs)
    obtain ⟨e, he⟩ := exists_rejectEvent hcand
    simp [State.gone, taken, he, Nat.add_assoc]
  | emit f => simp [State.gone, taken, Nat.add_right_comm]

theorem ScansTo.accounted_eq {s t : State} {i : Instr} (h : ScansTo s i t) (hinv : s.Inv) :
    t.accounted = s.accounted := by
  rw [State.accounted_eq, State.accounted_eq, h.gone_eq, h.held_eq hinv, List.length_append,
    Nat.add_assoc]

/-- `PUSH` adds its chunk to the bytes held. -/
theorem State.accounted_startPass {s : State} (hp : s.phase = .idle) (c : List Byte) :
    (s.startPass c).accounted = s.accounted + c.length := by
  have hheld : (s.startPass c).held = s.held ++ c := by rw [State.held_of_idle hp]; rfl
  rw [State.accounted_eq, hheld, List.length_append, ← Nat.add_assoc]
  rfl

/-- A whole pass keeps the account. -/
theorem runPass_accounted {n : Nat} {s t : State} (hinv : s.Inv) (h : runPass n s = .next t) :
    t.accounted = s.accounted := by
  obtain ⟨-, heq⟩ := runPass_keeps (fun u => u.Inv ∧ u.accounted = s.accounted)
    (fun u i v ⟨hu, heq⟩ hi => ⟨hu.of_scansTo hi, (hi.accounted_eq hu).trans heq⟩) n s t
    ⟨hinv, rfl⟩ h
  exact heq

end Sys2Proof.Machine
end

section
/-! SUPPORT. How a step serves the host's script (`20_memory.md` R47). -/

namespace Sys2Proof.Machine

/-- A reset at the script's head is taken in either phase (R133). -/
theorem step_reset {s : State} {h : List HostAct} (hh : s.host = .reset :: h) :
    step s = .next (s.withHost h).clear := by
  rw [step, arbitrate, hh]; rfl

/-- A chunk at the script's head is pushed in `IDLE` (R131). -/
theorem step_push {s : State} {c : List Byte} {h : List HostAct} (hp : s.phase = .idle)
    (hh : s.host = .push c :: h) : step s = execPush c (s.withHost h) := by
  rw [step, arbitrate, hh]
  dsimp only
  rw [hp]; rfl

/-- A gap at the script's head is the only thing that a wait in `IDLE` uses up (R155). -/
theorem step_gap {s : State} {h : List HostAct} (hp : s.phase = .idle) (hh : s.host = .gap :: h) :
    step s = .next (s.withHost h) := by
  rw [step, arbitrate, hh]
  dsimp only
  rw [hp]; rfl

/-- With nothing asked the idle block does nothing (R155). -/
theorem step_nothing {s : State} (hp : s.phase = .idle) (hh : s.host = []) : step s = .next s := by
  rw [step, arbitrate, hh]
  dsimp only
  rw [hp]
  exact congrArg (fun l => Host.Outcome.next (s.withHost l)) hh.symm

/-- A scan operation leaves the host's script. -/
theorem ScansTo.host_eq {s t : State} {i : Instr} (h : ScansTo s i t) : t.host = s.host := by
  cases h <;> rfl

/-- In `SCAN` a step without a reset takes at most a gap from the script (R168). -/
theorem step_host_of_scan {s t : State} (hp : s.phase = .scan) (hr : ∀ h, s.host ≠ .reset :: h)
    (h : step s = .next t) : t.host = afterGap s.host := by
  cases step_cases s t h with
  | reset l hh => exact absurd hh (hr l)
  | push _ _ _ hidle => rw [hp] at hidle; cases hidle
  | wait _ _ hidle => rw [hp] at hidle; cases hidle
  | scan i _ _ hs ht => exact (scansTo_of_exec (State.isScan_of_selected s i hs) ht).host_eq

end Sys2Proof.Machine
end

section
/-! The statements of `20_memory.md`, and how a step serves the host. -/

open Sys2Proof Sys2Proof.Machine

/-- Settles O5: the residual is within `RB_MAX` by R32 item 2. -/
theorem workBufferNeverOverflows : Obligations.WorkBufferNeverOverflows := by
  refine ⟨fun s t c hinv h => ?_, fun s c hc t h => ?_⟩
  · obtain ⟨-, hc, rfl⟩ := (execPush_eq_next_iff c s t).1 h
    have hlen : (s.startPass c).w.length = s.rb.length + c.length := List.length_append
    exact ⟨hlen, Nat.le_trans (Nat.le_of_eq hlen) (Nat.add_le_add hinv.residual hc), block_wellFormed.capacity⟩
  · obtain ⟨-, hle, -⟩ := (execPush_eq_next_iff c s t).1 h
    exact Nat.not_lt.2 hle hc

/-- Settles O46, by induction on the chunks, and on the operations of each pass. -/
theorem framesAreDisjointSlicesInOrder : Obligations.FramesAreDisjointSlicesInOrder := by
  intro cfg cs hw
  have hcuts : Cuts cfg cs.flatten (extractAll cfg [] cs) := extractAll_cuts hw [] cs
  exact ⟨hcuts.slices, hcuts.frames⟩

/-- Settles O55: the bytes an operation is decoded from open the tail of the work buffer. -/
theorem everyReadIsInsideTheBuffer : Obligations.EveryReadIsInsideTheBuffer := by
  intro s i bs hs hbs hne
  refine ⟨State.encode_within_of_selected hs hbs, State.memRead_of_selected hs hbs, ?sync,
    fun hh => ?len⟩
  case sync =>
    obtain ⟨b, t, rfl⟩ := List.exists_cons_of_ne_nil hne
    exact State.memRead_byte_of_selected hs hbs (j := 0) rfl
  case len =>
    have hlt : block.lenOff < bs.length := Nat.lt_of_lt_of_le block_wellFormed.lengthByte hh
    have hbyte := List.getElem?_eq_getElem hlt
    exact ⟨_, hbyte, State.memRead_byte_of_selected hs hbs hbyte⟩

/-- Settles O56: first what each scan operation takes, then the account operation by operation, `EXTRACT`
by induction on its scan operations. -/
theorem everyByteIsAccountedFor : Obligations.EveryByteIsAccountedFor := by
  refine ⟨fun i s t hinv hi h => ?taken, fun i s t hinv h => ?account⟩
  case taken =>
    have ht := scansTo_of_exec hi h
    refine ⟨taken block i, ht.held_eq hinv, ?_⟩
    have hwf := State.wf_of_selected ht.selected
    cases ht with
    | skip b => exact .inl ⟨b, rfl, rfl, (wf_skip_iff block b).1 hwf⟩
    | reject f => exact .inr (.inl ⟨f, rfl, rfl⟩)
    | emit f => exact .inr (.inr (.inl ⟨f, rfl, rfl⟩))
    | endPass => exact .inr (.inr (.inr ⟨rfl, rfl⟩))
    | waith => exact .inr (.inr (.inr ⟨rfl, rfl⟩))
    | waitb => exact .inr (.inr (.inr ⟨rfl, rfl⟩))
  case account =>
    cases exec_cases h with
    | trailer => exact ⟨fun _ _ _ => rfl, by simp⟩
    | valid => exact ⟨fun _ _ _ => rfl, by simp⟩
    | scan _ _ hs =>
      refine ⟨fun _ _ _ => hs.accounted_eq hinv, ?_⟩
      have hscan := State.isScan_of_selected s i hs.selected
      rintro c (rfl | ⟨rb, rfl⟩)
      · cases hscan
      · cases hscan
    | push c hp =>
      refine ⟨fun hne => absurd rfl (hne c), ?_⟩
      rintro d (hd | ⟨_, hd⟩)
      · cases hd; exact State.accounted_startPass hp c
      · cases hd
    | reset => exact ⟨fun _ _ hne => absurd rfl hne, by simp⟩
    | extract c u hp hc hu =>
      refine ⟨fun _ hne => absurd rfl (hne s.rb c), ?_⟩
      rintro d (hd | ⟨_, hd⟩)
      · cases hd
      · cases hd
        exact (runPass_accounted (hinv.startPass hc) hu).trans (State.accounted_startPass hp c)

/-- Settles O30. -/
theorem stepServesTheHost : Obligations.StepServesTheHost := by
  refine ⟨fun s h hh => step_reset hh, fun s c h hp hh hc => ?push, fun s h hp hh => step_gap hp hh,
    fun s hp hh => step_nothing hp hh, fun s t c h hp hh hstep => ?held⟩
  case push => exact (step_push hp hh).trans ((execPush_eq_next_iff c _ _).2 ⟨hp, hc, rfl⟩)
  case held =>
    have hhost := step_host_of_scan hp (by rw [hh]; simp) hstep
    rw [hh] at hhost ⊢
    exact hhost

end

section
/-! SUPPORT. Decode and encode are inverse to each other (`30_encoding.md` R66, R75): what the decode
answers is exactly a well-formed operation whose bytes open the bytes decoded, all of them where it stops
the pass. -/

namespace Sys2Proof

/-- From a whole header on, the length declared and the trailer decide (rows 3 to 5 of R66). -/
theorem decode_of_header {cfg : Config} {r : List Byte} {n : Nat} (hs : r.head? = some cfg.sync)
    (hh : cfg.hdrLen ≤ r.length) (hd : declaredLen cfg r = some n) :
    decode cfg r = .ok (if r.length < n then .waitb r
      else if valid cfg (r.take n) then .emit (r.take n) else .reject (r.take n)) := by
  obtain ⟨t, rfl⟩ := List.head?_eq_some_iff.1 hs
  simp only [decode, ne_eq, not_true_eq_false, if_false, if_neg (Nat.not_lt.2 hh), hd]
  split
  · rfl
  · split <;> rfl

/-- The converse of `decode_cases`: where a row's condition holds, its operation is decoded. -/
theorem DecodesTo.decode_eq {cfg : Config} {r : List Byte} {i : Instr} (h : DecodesTo cfg r i) :
    decode cfg r = .ok i := by
  cases h with
  | endPass hr => subst hr; rfl
  | skip b t hr hb => subst hr; exact if_pos hb
  | waith hs hn =>
    obtain ⟨t, rfl⟩ := List.head?_eq_some_iff.1 hs
    exact (if_neg (not_not.2 rfl)).trans (if_pos hn)
  | waitb n hs hh hd hn => rw [decode_of_header hs hh hd, if_pos hn]
  | reject n hs hh hd hn hv =>
    rw [decode_of_header hs hh hd, if_neg (Nat.not_lt.2 hn), hv, if_neg Bool.false_ne_true]
  | emit n hs hh hd hn hv =>
    rw [decode_of_header hs hh hd, if_neg (Nat.not_lt.2 hn), if_pos hv]

theorem decode_eq_ok_iff {cfg : Config} {r : List Byte} {i : Instr} :
    decode cfg r = .ok i ↔ DecodesTo cfg r i :=
  ⟨decode_cases cfg r i, DecodesTo.decode_eq⟩

/-- A candidate is cut out of any bytes it opens: they show a whole header, and their length byte declares
the candidate's own length (R14, R64). -/
theorem candidate_opens {cfg : Config} (hw : cfg.WellFormed) {f : List Byte}
    (hf : isCandidate cfg f = true) (t : List Byte) :
    (f ++ t).head? = some cfg.sync ∧ cfg.hdrLen ≤ (f ++ t).length ∧
      declaredLen cfg (f ++ t) = some f.length ∧ f.length ≤ (f ++ t).length ∧
      (f ++ t).take f.length = f := by
  obtain ⟨hs, hd⟩ := (isCandidate_iff cfg f).1 hf
  obtain ⟨-, hlen, -⟩ := lenOff_lt_declaredLen cfg hw f _ hd
  have hle : f.length ≤ (f ++ t).length := (List.prefix_append f t).length_le
  exact ⟨by rw [List.head?_append, hs]; rfl, by omega, declaredLen_append cfg f t _ hd, hle,
    List.take_left⟩

/-- A well-formed scan operation is decoded from its own bytes, whatever follows them where it goes on with
the pass. -/
theorem decodesTo_of_wf {cfg : Config} (hw : cfg.WellFormed) {i : Instr} {bs t : List Byte}
    (hwf : i.wf cfg = true) (hbs : encode i = some bs) (ht : i.continuesPass = false → t = []) :
    DecodesTo cfg (bs ++ t) i := by
  cases i with
  | endPass => cases hbs; cases ht rfl; exact .endPass rfl
  | skip b => cases hbs; exact .skip b t rfl ((wf_skip_iff cfg b).1 hwf)
  | waith r =>
    cases hbs; cases ht rfl
    obtain ⟨hs, hn⟩ := (wf_waith_iff cfg bs).1 hwf
    rw [List.append_nil]
    exact .waith hs hn
  | waitb r =>
    cases hbs; cases ht rfl
    obtain ⟨hs, hh, n, hd, hn⟩ := (wf_waitb_iff cfg bs).1 hwf
    rw [List.append_nil]
    exact .waitb n hs hh hd hn
  | reject f =>
    cases hbs
    obtain ⟨hf, hv⟩ := (wf_reject_iff cfg bs).1 hwf
    obtain ⟨hs, hh, hd, hn, htake⟩ := candidate_opens hw hf t
    have h := DecodesTo.reject bs.length hs hh hd hn (by rw [htake, hv])
    rwa [htake] at h
  | emit f =>
    cases hbs
    obtain ⟨hf, hv⟩ := (Bool.and_eq_true _ _).mp ((wf_emit_iff cfg bs).1 hwf)
    obtain ⟨hs, hh, hd, hn, htake⟩ := candidate_opens hw hf t
    have h := DecodesTo.emit bs.length hs hh hd hn (by rw [htake, hv])
    rwa [htake] at h
  | trailer => cases hbs
  | valid => cases hbs
  | push => cases hbs
  | reset => cases hbs
  | extract => cases hbs

/-- The scan operations are those that have an encoding (R75). -/
theorem exists_encode {i : Instr} (hi : i.isScan = true) : ∃ bs, encode i = some bs := by
  cases i with
  | endPass | skip | waith | waitb | reject | emit => exact ⟨_, rfl⟩
  | trailer | valid | push | reset | extract => cases hi

/-- An operation that stops the pass is decoded from all the bytes present (R103, R104, R107). -/
theorem DecodesTo.encode_of_stops {cfg : Config} {r bs : List Byte} {i : Instr}
    (h : DecodesTo cfg r i) (hbs : encode i = some bs) (hi : i.continuesPass = false) : bs = r := by
  cases h with
  | endPass h => cases hbs; exact h.symm
  | waith => cases hbs; rfl
  | waitb => cases hbs; rfl
  | skip | reject | emit => cases hi

end Sys2Proof
end

section
/-! SUPPORT. The rows of the decode table (`30_encoding.md` R66), each with its condition. -/

namespace Sys2Proof

variable {cfg : Config} {r x : List Byte} {b : Byte}

theorem exists_declaredLen_iff {P : Nat → Prop} :
    (∃ n, declaredLen cfg r = some n ∧ P n) ↔
      ∃ len, r[cfg.lenOff]? = some len ∧ P (cfg.totalLen len) := by
  simp only [declaredLen_eq_some_iff, exists_exists_and_eq_and]

theorem decode_endPass_iff : decode cfg r = .ok .endPass ↔ r = [] := by
  rw [decode_eq_ok_iff]
  constructor
  · intro h
    cases h with
    | endPass hr => exact hr
  · exact .endPass

theorem decode_skip_iff : decode cfg r = .ok (.skip b) ↔ r.head? = some b ∧ b ≠ cfg.sync := by
  rw [decode_eq_ok_iff]
  constructor
  · intro h
    cases h with
    | skip _ t hr hb => exact ⟨List.head?_eq_some_iff.2 ⟨t, hr⟩, hb⟩
  · rintro ⟨hr, hb⟩
    obtain ⟨t, h⟩ := List.head?_eq_some_iff.1 hr
    exact .skip b t h hb

theorem decode_waith_iff : decode cfg r = .ok (.waith x) ↔
    x = r ∧ r.head? = some cfg.sync ∧ r.length < cfg.hdrLen := by
  rw [decode_eq_ok_iff]
  constructor
  · intro h
    cases h with
    | waith hs hn => exact ⟨rfl, hs, hn⟩
  · rintro ⟨rfl, hs, hn⟩; exact .waith hs hn

theorem decode_waitb_iff : decode cfg r = .ok (.waitb x) ↔
    x = r ∧ r.head? = some cfg.sync ∧ cfg.hdrLen ≤ r.length ∧
      ∃ n, declaredLen cfg r = some n ∧ r.length < n := by
  rw [decode_eq_ok_iff]
  constructor
  · intro h
    cases h with
    | waitb n hs hh hd hn => exact ⟨rfl, hs, hh, n, hd, hn⟩
  · rintro ⟨rfl, hs, hh, n, hd, hn⟩; exact .waitb n hs hh hd hn

theorem decode_reject_iff : decode cfg r = .ok (.reject x) ↔
    r.head? = some cfg.sync ∧ cfg.hdrLen ≤ r.length ∧
      ∃ n, declaredLen cfg r = some n ∧ n ≤ r.length ∧ x = r.take n ∧ valid cfg x = false := by
  rw [decode_eq_ok_iff]
  constructor
  · intro h
    cases h with
    | reject n hs hh hd hn hv => exact ⟨hs, hh, n, hd, hn, rfl, hv⟩
  · rintro ⟨hs, hh, n, hd, hn, rfl, hv⟩; exact .reject n hs hh hd hn hv

theorem decode_emit_iff : decode cfg r = .ok (.emit x) ↔
    r.head? = some cfg.sync ∧ cfg.hdrLen ≤ r.length ∧
      ∃ n, declaredLen cfg r = some n ∧ n ≤ r.length ∧ x = r.take n ∧ valid cfg x = true := by
  rw [decode_eq_ok_iff]
  constructor
  · intro h
    cases h with
    | emit n hs hh hd hn hv => exact ⟨hs, hh, n, hd, hn, rfl, hv⟩
  · rintro ⟨hs, hh, n, hd, hn, rfl, hv⟩; exact .emit n hs hh hd hn hv

end Sys2Proof
end

section
/-! SUPPORT. A frame written out: five header bytes, payload, trailer (`30_encoding.md` R61). -/

namespace Sys2Proof

/-- `VALID` compares both bytes of the stored trailer with the recomputed ones (R85). -/
theorem valid_append_iff {cfg : Config} (htl : cfg.trlLen = 2) (h : List Byte) (x a : Byte) :
    valid cfg (h ++ [x, a]) = true ↔ trailer cfg h = (x, a) := by
  simp only [valid, storedTrailer_append cfg htl, covered_append cfg htl, bothMatch,
    compareTrailers, Bool.and_eq_true, beq_iff_eq, Prod.ext_iff]

/-- The add byte is the sum of everything before it, the checksum byte included (R84). -/
theorem trailer_block (h : List Byte) :
    trailer block h = (xorFold h, BitVec.ofNat 8 (sumFold (h ++ [xorFold h]) % 256)) := by
  rw [sumFold_append, sumFold_cons, sumFold_nil, Nat.add_zero]; rfl

/-- A sequence of at least five bytes is a header and what follows it. -/
theorem exists_header_split : ∀ (h : List Byte), 5 ≤ h.length →
    ∃ m src dst cmd len p, h = m :: src :: dst :: cmd :: len :: p
  | m :: src :: dst :: cmd :: len :: p, _ => ⟨m, src, dst, cmd, len, p, rfl⟩
  | [], hn | [_], hn | [_, _], hn | [_, _, _], hn | [_, _, _, _], hn => absurd hn (by simp)

/-- What a frame of the block is, written out (R27, R61). -/
theorem exists_frame_fields {f : List Byte} (hf : isFrame block f = true) :
    ∃ src dst cmd len p x a, p.length = len.toNat ∧
      trailer block (block.sync :: src :: dst :: cmd :: len :: p) = (x, a) ∧
      f = (block.sync :: src :: dst :: cmd :: len :: p) ++ [x, a] := by
  obtain ⟨hsync, hdecl, hvalid⟩ := (isFrame_iff block f).1 hf
  obtain ⟨len', hlenByte, htotal⟩ := (declaredLen_eq_some_iff block f _).1 hdecl
  rw [totalLen_block] at htotal
  obtain ⟨h, x, a, rfl⟩ := exists_trailer_split f (by omega)
  rw [List.length_append] at htotal
  obtain ⟨m, src, dst, cmd, len, p, rfl⟩ := exists_header_split h (by simp at htotal; omega)
  obtain rfl : m = block.sync := Option.some.inj hsync
  obtain rfl : len = len' := Option.some.inj hlenByte
  refine ⟨src, dst, cmd, len, p, x, a, ?_, (valid_append_iff rfl _ x a).1 hvalid, rfl⟩
  simp only [List.length_cons, List.length_nil] at htotal
  omega

end Sys2Proof
end

section
/-! SUPPORT. Hex text and written host lines are read back (`30_encoding.md` R71 to R73). -/

namespace Sys2Proof

theorem hexValue_hexDigit {n : Nat} (hn : n < 16) : hexValue (hexDigit n) = some n := by
  revert n; decide

theorem hexDigit_ne_space {n : Nat} (hn : n < 16) : hexDigit n ≠ ' ' := by
  revert n; decide

/-- The two digits written for a byte are read as that byte (R72). -/
theorem hexPair_byteToHex (b : Byte) :
    hexPair (hexDigit (b.toNat / 16)) (hexDigit (b.toNat % 16)) = .ok b := by
  have hhi : b.toNat / 16 < 16 := Nat.div_lt_of_lt_mul b.isLt
  have hlo : b.toNat % 16 < 16 := Nat.mod_lt _ (by decide)
  rw [hexPair, hexValue_hexDigit hhi, hexValue_hexDigit hlo]
  dsimp only
  rw [Nat.div_add_mod, BitVec.ofNat_toNat, BitVec.setWidth_eq]

theorem hexToBytes_pair_eq_ok_iff {hi lo : Char} {rest : List Char} {bs : List Byte} :
    hexToBytes (hi :: lo :: rest) = .ok bs ↔
      ∃ b bs', hexPair hi lo = .ok b ∧ hexToBytes rest = .ok bs' ∧ bs = b :: bs' := by
  rw [hexToBytes]
  cases hexPair hi lo with
  | error e => simp
  | ok b => cases hexToBytes rest <;> simp [eq_comm]

theorem hexToBytes_bytesToHex (bs : List Byte) : hexToBytes (bytesToHex bs) = .ok bs := by
  induction bs with
  | nil => rfl
  | cons b bs ih =>
    change hexToBytes (hexDigit (b.toNat / 16) :: hexDigit (b.toNat % 16) :: bytesToHex bs) = _
    exact hexToBytes_pair_eq_ok_iff.2 ⟨b, bs, hexPair_byteToHex b, ih, rfl⟩

/-- Text that is read is a sequence of pairs, one for each byte (R71, U11). -/
theorem length_of_hexToBytes : ∀ {cs : List Char} {bs : List Byte},
    hexToBytes cs = .ok bs → cs.length = 2 * bs.length
  | [], _, h => by cases h; rfl
  | [_], _, h => by cases h
  | hi :: lo :: rest, _, h => by
    obtain ⟨b, bs', -, hrest, rfl⟩ := hexToBytes_pair_eq_ok_iff.1 h
    have hlen := length_of_hexToBytes hrest
    simp only [List.length_cons]
    omega

/-- Spaces before a pair are skipped (R73). -/
theorem parsePairs_space (rest : List Char) : parsePairs (' ' :: rest) = parsePairs rest := by
  rw [parsePairs]

theorem parsePairs_pair {hi lo : Char} {rest : List Char} {b : Byte} {bs : List Byte}
    (hsp : hi ≠ ' ') (hb : hexPair hi lo = .ok b) (hrest : parsePairs rest = .ok bs) :
    parsePairs (hi :: lo :: rest) = .ok (b :: bs) := by
  rw [parsePairs, hb, hrest]
  exact hsp

theorem parsePairs_writePairs (c : List Byte) : parsePairs (writePairs c) = .ok c := by
  induction c with
  | nil => rfl
  | cons b c ih =>
    have hsp : hexDigit (b.toNat / 16) ≠ ' ' := hexDigit_ne_space (Nat.div_lt_of_lt_mul b.isLt)
    change parsePairs (' ' :: hexDigit (b.toNat / 16) :: hexDigit (b.toNat % 16) :: writePairs c) = _
    rw [parsePairs_space, parsePairs_pair hsp (hexPair_byteToHex b) ih]

theorem parseHostLine_push {rest : List Char} {c : List Byte} (h : parsePairs rest = .ok c) :
    parseHostLine ('P' :: 'U' :: 'S' :: 'H' :: rest) = .ok (.push c) := by
  simp only [parseHostLine, h]

end Sys2Proof
end

section
/-! SUPPORT. The step of a pass is the operation selected (`41_frame_extractor.md` R101). -/

namespace Sys2Proof.Machine

/-- Without a reset asked, the step is the meaning of the operation selected, and at most a gap leaves the
script (R101, R168). -/
theorem step_eq_exec {s : State} {i : Instr} (hr : ∀ h, s.host ≠ .reset :: h)
    (hs : s.selected = .ok i) : step s = exec i (s.withHost (afterGap s.host)) := by
  have hp : s.phase = .scan := State.phase_of_selected hs
  have ha : arbitrate s = .ok (some i, s.withHost (afterGap s.host)) := by
    unfold arbitrate
    split
    · rename_i h hh; exact absurd hh (hr h)
    · rename_i c h hh
      have hheld : afterGap s.host = s.host := by rw [hh]; rfl
      rw [hp, hs, hheld]; rfl
    · rw [hp, hs]; rfl
  rw [step, ha]

/-- What is placed at the cursor is what is selected (log entry 11). -/
theorem State.selected_withWork {s : State} {bytes : List Byte} {i : Instr}
    (h : decode block bytes = .ok i) : (s.withWork bytes).selected = .ok i :=
  (State.selected_eq_ok_iff _ i).2 ⟨rfl, Nat.zero_le _, h⟩

theorem decodeTableWord_eq_some_iff {nbits w : Nat} {i : Instr} :
    decodeTableWord nbits w = some i ↔
      decode block (bytesOfWord (bytesForBits nbits) w) = .ok i := by
  unfold decodeTableWord
  cases decode block (bytesOfWord (bytesForBits nbits) w) <;> simp [Except.toOption]

end Sys2Proof.Machine
end

section
/-! The statements of `30_encoding.md`, and that a word placed at the cursor runs next. -/

open Sys2Proof Sys2Proof.Machine

/-- Settles O24: each row's condition is what its operation's well-formedness says of its bytes. -/
theorem decodeOfEncodeIsTheOperation : Obligations.DecodeOfEncodeIsTheOperation := by
  intro cfg i hw hi hwf
  obtain ⟨bs, hbs⟩ := exists_encode hi
  refine ⟨bs, hbs, ?own, fun hc t => ?followed⟩
  case own =>
    have h := decodesTo_of_wf hw hwf hbs (t := []) fun _ => rfl
    rw [List.append_nil] at h
    exact h.decode_eq
  case followed =>
    exact (decodesTo_of_wf hw hwf hbs (t := t) (by simp [hc])).decode_eq

/-- Settles O22: a frame is split into header, payload and trailer, and the views of the parts are those
of R61. -/
theorem frameFieldsStandAtTheirOffsets : Obligations.FrameFieldsStandAtTheirOffsets := by
  refine ⟨fun f hf => ?frame, fun src dst cmd p hp => ?built⟩
  case frame =>
    obtain ⟨src, dst, cmd, len, p, x, a, hlen, htrailer, rfl⟩ := exists_frame_fields hf
    rw [trailer_block] at htrailer
    obtain ⟨rfl, rfl⟩ := Prod.ext_iff.1 htrailer
    exact ⟨_, (viewFrame_block _ _ _ _ _ p _ _).trans (if_pos hlen), rfl, hlen, rfl, rfl⟩
  case built =>
    have hlen : p.length = (BitVec.ofNat 8 p.length).toNat := by
      rw [BitVec.toNat_ofNat, Nat.mod_eq_of_lt (by omega)]
    exact ⟨_, _, (viewFrame_block _ _ _ _ _ p _ _).trans (if_pos hlen)⟩

/-- Settles O23: each row is one constructor of `DecodesTo`, read both ways; the last three state the length
declared by its length byte (R64). -/
theorem decodeTableRowByRow : Obligations.DecodeTableRowByRow := by
  intro cfg r hw
  obtain ⟨i, hi⟩ := exists_decode hw r
  refine ⟨decode_endPass_iff, fun _ => decode_skip_iff, fun _ => decode_waith_iff,
    fun _ => decode_waitb_iff.trans ?_, fun _ => decode_reject_iff.trans ?_,
    fun _ => decode_emit_iff.trans ?_, i, hi, decode_isScan cfg r i hi⟩
  all_goals rw [exists_declaredLen_iff]; rfl

/-- Settles O25: the other direction of the same rows. -/
theorem encodeOfDecodeIsAPrefix : Obligations.EncodeOfDecodeIsAPrefix := by
  intro cfg r i hw h
  have hi := decode_isScan cfg r i h
  have hdec := decode_cases cfg r i h
  obtain ⟨bs, hbs⟩ := exists_encode hi
  obtain ⟨t, ht⟩ := hdec.encode_prefix hbs
  refine ⟨hi, hdec.wf hw, bs, t, hbs, ht.symm, fun hc => ?_⟩
  exact List.self_eq_append_right.1 ((hdec.encode_of_stops hbs hc).trans ht.symm)

/-- Settles O27: byte by byte, and pair by pair. -/
theorem hexTextRoundTrip : Obligations.HexTextRoundTrip :=
  ⟨hexToBytes_bytesToHex, fun _ _ => length_of_hexToBytes⟩

/-- Settles O28: every pair written is read as its byte, since no digit is a space. -/
theorem writtenHostLinesReadBack : Obligations.WrittenHostLinesReadBack := by
  intro i line h
  cases i with
  | push c => cases h; exact parseHostLine_push (parsePairs_writePairs c)
  | reset => cases h; rfl
  | _ => cases h

/-- Settles O26: the decode evaluates to each answer. -/
theorem writtenOutWordsDecodeRight : Obligations.WrittenOutWordsDecodeRight :=
  ⟨rfl, rfl, rfl, rfl, rfl, rfl⟩

/-- Settles O31: the word is selected where it is placed, and the host asks nothing. -/
theorem fetchedWordRunsNext : Obligations.FetchedWordRunsNext := by
  intro s nbits w i h
  have hs : (s.withFetchWord nbits w).selected = .ok i :=
    State.selected_withWork (decodeTableWord_eq_some_iff.1 h)
  exact step_eq_exec (fun _ => (List.cons_ne_nil _ _).symm) hs

end

section
/-! SUPPORT. `XOR` and the 8-bit sum of a byte sequence (`40_frame_codec.md` R81 to R83): what they are of
appended and permuted sequences, and the trailer in terms of both. -/

namespace Sys2Proof

/-! ### `XOR` -/

theorem xorFold_eq_foldr (s : List Byte) : xorFold s = s.foldr (fun b x => b ^^^ x) 0#8 :=
  List.foldl_eq_foldr

@[simp] theorem xorFold_singleton (b : Byte) : xorFold [b] = b := by
  rw [xorFold_cons, xorFold_nil, BitVec.xor_zero]

theorem xorFold_perm {s t : List Byte} (h : s.Perm t) : xorFold s = xorFold t := by
  rw [xorFold_eq_foldr, xorFold_eq_foldr]
  exact h.foldr_op_eq

/-- Taking two bytes out of a sequence (R81: the order does not matter). -/
theorem xorFold_extract_two (p m q : List Byte) (c d : Byte) :
    xorFold (p ++ [c] ++ m ++ [d] ++ q) = (c ^^^ d) ^^^ xorFold (p ++ m ++ q) := by
  simp only [xorFold_append, xorFold_singleton]
  ac_rfl

/-- A byte changed at one place changes the `XOR` (R87). -/
theorem xorFold_set_eq_iff {s : List Byte} {i : Nat} (hi : i < s.length) (b : Byte) :
    xorFold (s.set i b) = xorFold s ↔ s[i]? = some b := by
  obtain ⟨p, q, hs, -, hset⟩ := List.exists_of_set (a' := b) hi
  rw [hset, List.getElem?_eq_getElem hi, Option.some_inj]
  generalize s[i] = c at hs
  rw [hs, xorFold_append, xorFold_append, xorFold_cons, xorFold_cons, BitVec.xor_right_inj,
    BitVec.xor_left_inj, eq_comm]

/-! ### The sum kept in 8 bits -/

theorem sumFold_eq_sum (s : List Byte) : sumFold s = (s.map BitVec.toNat).sum := by
  induction s with
  | nil => rfl
  | cons b s ih => rw [sumFold_cons, ih, List.map_cons, List.sum_cons]

/-- `SUM(s) mod 256` as a byte (R82). -/
def byteSum (s : List Byte) : Byte := BitVec.ofNat 8 (sumFold s % 256)

theorem byteSum_eq_ofNat (s : List Byte) : byteSum s = BitVec.ofNat 8 (sumFold s) :=
  BitVec.eq_of_toNat_eq (by simp [byteSum])

theorem byteSum_eq_iff {s t : List Byte} :
    byteSum s = byteSum t ↔ sumFold s % 256 = sumFold t % 256 := by
  simp [byteSum, ← BitVec.toNat_inj]

theorem byteSum_append (s t : List Byte) : byteSum (s ++ t) = byteSum s + byteSum t := by
  simp only [byteSum_eq_ofNat, sumFold_append, BitVec.ofNat_add]

@[simp] theorem byteSum_singleton (b : Byte) : byteSum [b] = b := by
  rw [byteSum_eq_ofNat, sumFold_cons, sumFold_nil, Nat.add_zero, BitVec.ofNat_toNat,
    BitVec.setWidth_eq]

theorem byteSum_perm {s t : List Byte} (h : s.Perm t) : byteSum s = byteSum t := by
  rw [byteSum_eq_iff, sumFold_eq_sum, sumFold_eq_sum, (h.map _).sum_nat]

/-- Taking two bytes out of a sequence (R82: the order does not matter). -/
theorem byteSum_extract_two (p m q : List Byte) (c d : Byte) :
    byteSum (p ++ [c] ++ m ++ [d] ++ q) = (c + d) + byteSum (p ++ m ++ q) := by
  simp only [byteSum_append, byteSum_singleton]
  ac_rfl

/-- Dropping the carry at each addition is reducing once (R83). -/
theorem foldl_add_eq_byteSum (s : List Byte) : s.foldl (fun t b => t + b) 0#8 = byteSum s := by
  rw [byteSum_eq_ofNat]
  refine List.foldl_hom (BitVec.ofNat 8) (init := 0) fun t b => ?_
  rw [BitVec.ofNat_add, BitVec.ofNat_toNat, BitVec.setWidth_eq]

/-! ### The trailer -/

/-- `TRAILER` under the block's modulus (R84). -/
theorem trailer_block_eq (s : List Byte) :
    trailer block s = (xorFold s, byteSum s + xorFold s) := by
  rw [trailer_block]
  change (xorFold s, byteSum (s ++ [xorFold s])) = _
  rw [byteSum_append, byteSum_singleton]

theorem trailer_perm {s t : List Byte} (h : s.Perm t) : trailer block s = trailer block t := by
  rw [trailer_block_eq, trailer_block_eq, xorFold_perm h, byteSum_perm h]

theorem addByteByAccumulator_eq (s : List Byte) :
    addByteByAccumulator s = (trailer block s).2 := by
  rw [addByteByAccumulator, foldl_add_eq_byteSum, trailer_block_eq]

end Sys2Proof
end

section
/-! SUPPORT. What `VALID` sees of a sequence (`40_frame_codec.md` R85 to R89). -/

namespace Sys2Proof

/-- A sequence shorter than a trailer has none to compare (R85, decision D10). -/
theorem valid_eq_false_of_short {f : List Byte} (hf : f.length < 2) : valid block f = false := by
  have hnone : storedTrailer block f = none := if_pos hf
  rw [valid, hnone]

theorem two_le_length_of_valid {f : List Byte} (hv : valid block f = true) : 2 ≤ f.length := by
  by_contra hf
  rw [valid_eq_false_of_short (Nat.not_le.1 hf)] at hv
  cases hv

/-- The add byte checked against the sum that takes in the stored checksum byte (R86). -/
theorem valid_append_iff_stored (h : List Byte) (x a : Byte) :
    valid block (h ++ [x, a]) = true ↔ x = xorFold h ∧ a = byteSum (h ++ [x]) := by
  rw [valid_append_iff rfl, trailer_block_eq, Prod.mk.injEq, byteSum_append, byteSum_singleton]
  constructor
  · rintro ⟨rfl, rfl⟩; exact ⟨rfl, rfl⟩
  · rintro ⟨rfl, rfl⟩; exact ⟨rfl, rfl⟩

/-- The check over the bytes as they arrive, all but the last taken in (R86). -/
theorem valid_concat_iff {g : List Byte} (hg : g ≠ []) (a : Byte) :
    valid block (g ++ [a]) = true ↔ xorFold g = 0#8 ∧ byteSum g = a := by
  obtain ⟨h, x, rfl⟩ := (List.eq_nil_or_concat' g).resolve_left hg
  rw [List.append_assoc, List.singleton_append, valid_append_iff_stored, xorFold_append,
    xorFold_singleton, BitVec.xor_eq_zero_iff, eq_comm (a := x), eq_comm (a := a)]

theorem validStreaming_concat_iff {g : List Byte} (hg : g ≠ []) (a : Byte) :
    validStreaming block (g ++ [a]) = true ↔ xorFold g = 0#8 ∧ byteSum g = a := by
  have hlen : block.trlLen ≤ (g ++ [a]).length := by
    rw [List.length_append]
    exact Nat.succ_le_succ (List.length_pos_iff.2 hg)
  simp only [validStreaming, List.getLast?_concat, List.dropLast_concat, hlen, decide_true,
    Bool.true_and, Bool.and_eq_true, beq_iff_eq]
  rfl

theorem validStreaming_eq_false_of_short {f : List Byte} (hf : f.length < 2) :
    validStreaming block f = false := by
  have hlen : ¬ block.trlLen ≤ f.length := Nat.not_le.2 hf
  rw [validStreaming]
  split
  · rfl
  · rw [decide_eq_false hlen, Bool.false_and, Bool.false_and]

/-- A sequence that can be valid is the bytes that the running check takes in and the add byte. -/
theorem exists_add_byte_split {f : List Byte} (hf : 2 ≤ f.length) :
    ∃ g a, g ≠ [] ∧ f = g ++ [a] := by
  obtain ⟨h, x, a, rfl⟩ := exists_trailer_split f hf
  exact ⟨h ++ [x], a, by simp, by simp⟩

/-- `VALID` sees of the covered bytes only their `XOR` and their sum modulo 256 (R89). -/
theorem valid_append_congr {h g : List Byte} (hxor : xorFold h = xorFold g)
    (hsum : byteSum h = byteSum g) (x a : Byte) :
    valid block (h ++ [x, a]) = valid block (g ++ [x, a]) := by
  rw [Bool.eq_iff_iff, valid_append_iff rfl, valid_append_iff rfl, trailer_block_eq,
    trailer_block_eq, hxor, hsum]

/-- Two covered bytes replaced by two of the same `XOR` and the same 8-bit sum (R89). -/
theorem valid_replace_two {c d c' d' : Byte} (hxor : c' ^^^ d' = c ^^^ d) (hsum : c' + d' = c + d)
    (p m q : List Byte) (x a : Byte) :
    valid block (p ++ [c'] ++ m ++ [d'] ++ q ++ [x, a]) =
      valid block (p ++ [c] ++ m ++ [d] ++ q ++ [x, a]) := by
  apply valid_append_congr
  · rw [xorFold_extract_two, xorFold_extract_two, hxor]
  · rw [byteSum_extract_two, byteSum_extract_two, hsum]

/-! ### One bit position flipped in two bytes -/

/-- The `XOR` does not see one change made to two bytes. -/
theorem xor_mask_xor_mask (c d k : Byte) : (c ^^^ k) ^^^ (d ^^^ k) = c ^^^ d := by
  calc (c ^^^ k) ^^^ (d ^^^ k) = (c ^^^ d) ^^^ (k ^^^ k) := by ac_rfl
    _ = c ^^^ d := by rw [BitVec.xor_self, BitVec.xor_zero]

/-- Where two bytes share no set bit, `or` is `XOR`. -/
theorem or_eq_xor_of_and_eq_zero {c k : Byte} (h : c &&& k = 0#8) : c ||| k = c ^^^ k := by
  refine BitVec.eq_of_getLsbD_eq fun i _ => ?_
  have hbit : (c.getLsbD i && k.getLsbD i) = false := by
    rw [← BitVec.getLsbD_and, h, BitVec.getLsbD_zero]
  rw [BitVec.getLsbD_or, BitVec.getLsbD_xor]
  cases hc : c.getLsbD i with
  | false => rw [Bool.false_or, Bool.false_xor]
  | true =>
    rw [hc, Bool.true_and] at hbit
    rw [hbit]; rfl

/-- To set a clear bit is to flip it, -/
theorem or_twoPow_of_clear {c : Byte} {j : Nat} (hc : c.getLsbD j = false) :
    c ||| BitVec.twoPow 8 j = c ^^^ BitVec.twoPow 8 j :=
  or_eq_xor_of_and_eq_zero (by simp [BitVec.and_twoPow, hc])

/-- … and flipping it adds its weight. -/
theorem xor_twoPow_of_clear {c : Byte} {j : Nat} (hc : c.getLsbD j = false) :
    c ^^^ BitVec.twoPow 8 j = c + BitVec.twoPow 8 j := by
  rw [← or_twoPow_of_clear hc,
    BitVec.add_eq_or_of_and_eq_zero c _ (by simp [BitVec.and_twoPow, hc])]

/-- One bit position flipped where it is set and where it is clear: the sum is kept. -/
theorem add_flip_set_clear {c d : Byte} {j : Nat} (hj : j < 8) (hc : c.getLsbD j = true)
    (hd : d.getLsbD j = false) :
    (c ^^^ BitVec.twoPow 8 j) + (d ^^^ BitVec.twoPow 8 j) = c + d := by
  have hclear : (c ^^^ BitVec.twoPow 8 j).getLsbD j = false := by simp [hc, hj]
  have hback : (c ^^^ BitVec.twoPow 8 j) + BitVec.twoPow 8 j = c := by
    rw [← xor_twoPow_of_clear hclear, BitVec.xor_assoc, BitVec.xor_self, BitVec.xor_zero]
  calc (c ^^^ BitVec.twoPow 8 j) + (d ^^^ BitVec.twoPow 8 j)
      = ((c ^^^ BitVec.twoPow 8 j) + BitVec.twoPow 8 j) + d := by
        rw [xor_twoPow_of_clear hd]; ac_rfl
    _ = c + d := by rw [hback]

/-- Bit 7 flipped where it is clear in both bytes: the sum moves by 256. -/
theorem add_flip_bit7_clear {c d : Byte} (hc : c.getLsbD 7 = false) (hd : d.getLsbD 7 = false) :
    (c ^^^ BitVec.twoPow 8 7) + (d ^^^ BitVec.twoPow 8 7) = c + d := by
  have hcarry : BitVec.twoPow 8 7 + BitVec.twoPow 8 7 = 0#8 := by decide
  calc (c ^^^ BitVec.twoPow 8 7) + (d ^^^ BitVec.twoPow 8 7)
      = (c + d) + (BitVec.twoPow 8 7 + BitVec.twoPow 8 7) := by
        rw [xor_twoPow_of_clear hc, xor_twoPow_of_clear hd]; ac_rfl
    _ = c + d := by rw [hcarry, BitVec.add_zero]

theorem getLsbD_seven_of_lt {c : Byte} (hc : c.toNat < 128) : c.getLsbD 7 = false :=
  Nat.testBit_lt_two_pow hc

theorem or_bit7_eq_flip {c : Byte} (hc : c.toNat < 128) :
    c ||| 0x80#8 = c ^^^ BitVec.twoPow 8 7 :=
  or_twoPow_of_clear (getLsbD_seven_of_lt hc)

/-! ### `FRAME` -/

/-- `FRAME` builds a frame: sync marker, declared length and trailer are right (R74, R88). -/
theorem isFrame_buildFrame (src dst cmd : Byte) {p : List Byte} (hp : p.length ≤ 255) :
    isFrame block (buildFrame block src dst cmd p) = true := by
  have hlen : (BitVec.ofNat 8 p.length).toNat = p.length := by
    rw [BitVec.toNat_ofNat, Nat.mod_eq_of_lt (Nat.lt_succ_of_le hp)]
  rw [buildFrame_block, isFrame_iff]
  refine ⟨rfl, (declaredLen_eq_some_iff _ _ _).2 ⟨BitVec.ofNat 8 p.length, rfl, ?_⟩,
    (valid_append_iff rfl _ _ _).2 rfl⟩
  rw [totalLen_block, hlen, List.length_append, List.length_append]
  simp only [List.length_cons, List.length_nil]
  omega

end Sys2Proof
end

section
/-! The statements of `40_frame_codec.md`. -/

open Sys2Proof Sys2Proof.Machine

/-- Settles O14: the closed forms of both folds. -/
theorem trailerIsXorThenSum : Obligations.TrailerIsXorThenSum := by
  refine ⟨fun s => ⟨xorFold_eq_foldr s, ?add⟩, rfl, fun b => ?single⟩
  case add =>
    rw [← xorFold_eq_foldr, ← sumFold_eq_sum]
    exact (BitVec.toNat_ofNat _ 8).trans (Nat.mod_mod _ _)
  case single =>
    have hadd : b + b = BitVec.ofNat 8 (2 * b.toNat % 256) :=
      BitVec.eq_of_toNat_eq (by rw [BitVec.toNat_add, BitVec.toNat_ofNat]; omega)
    rw [trailer_block_eq, xorFold_singleton, byteSum_singleton, hadd]

/-- Settles O15: a sequence of two bytes or more ends in a trailer, a shorter one has none. -/
theorem validMeansTheTrailerMatches : Obligations.ValidMeansTheTrailerMatches := by
  refine ⟨fun f => ⟨fun hv => ?_, ?_⟩, fun _ => valid_eq_false_of_short⟩
  · obtain ⟨h, x, a, rfl⟩ := exists_trailer_split f (two_le_length_of_valid hv)
    exact ⟨h, x, a, rfl, (valid_append_iff rfl h x a).1 hv⟩
  · rintro ⟨h, x, a, rfl, ht⟩
    exact (valid_append_iff rfl h x a).2 ht

/-- Settles O17: the accumulator holds the 8-bit sum, which a permutation keeps. -/
theorem eightBitAccumulatorSuffices : Obligations.EightBitAccumulatorSuffices := fun s t h => by
  rw [addByteByAccumulator_eq, trailer_perm h]

/-- Settles O18: both forms of R86, and the streaming form on every sequence by whether it can hold a
trailer. -/
theorem streamingCheckIsValid : Obligations.StreamingCheckIsValid := by
  refine ⟨valid_append_iff_stored, fun h x a => ?running, fun f => ?streaming⟩
  case running =>
    rw [← List.singleton_append (l := [a]), ← List.append_assoc]
    exact valid_concat_iff (List.concat_ne_nil x h) a
  case streaming =>
    rcases Nat.lt_or_ge f.length 2 with hshort | hlong
    · rw [validStreaming_eq_false_of_short hshort, valid_eq_false_of_short hshort]
    · obtain ⟨g, a, hg, rfl⟩ := exists_add_byte_split hlong
      rw [Bool.eq_iff_iff, validStreaming_concat_iff hg, valid_concat_iff hg]

/-- Settles O19 by the streaming form of `VALID` (R86): a change before the add byte changes the `XOR`
through the stored checksum byte, a change of the add byte leaves the sum it is compared with. -/
theorem singleByteErrorsAreDetected : Obligations.SingleByteErrorsAreDetected := by
  intro f i b hv hi hb
  obtain ⟨g, a, hg, rfl⟩ := exists_add_byte_split (two_le_length_of_valid hv)
  obtain ⟨hxor, hsum⟩ := (valid_concat_iff hg a).1 hv
  rw [Bool.eq_false_iff]
  intro hv'
  rcases Nat.lt_or_ge i g.length with hbefore | hadd
  · rw [List.getElem?_append_left hbefore] at hb
    rw [List.set_append_left _ _ hbefore] at hv'
    have hg' : g.set i b ≠ [] := by simpa using hg
    obtain ⟨hxor', -⟩ := (valid_concat_iff hg' a).1 hv'
    exact hb ((xorFold_set_eq_iff hbefore b).1 (hxor'.trans hxor.symm))
  · obtain rfl : i = g.length := by
      rw [List.length_append, List.length_singleton] at hi; omega
    rw [List.getElem?_concat_length] at hb
    rw [List.set_append_right _ _ hadd, Nat.sub_self] at hv'
    obtain ⟨-, hsum'⟩ := (valid_concat_iff hg b).1 hv'
    exact hb (congrArg some (hsum.symm.trans hsum'))

/-- Settles O20. -/
theorem trailerExistsAndIsUnique : Obligations.TrailerExistsAndIsUnique :=
  ⟨fun h x a => (valid_append_iff rfl h x a).trans eq_comm,
    fun src dst cmd _ => isFrame_buildFrame src dst cmd⟩

/-- Settles O21: each change named keeps the `XOR` and the 8-bit sum. -/
theorem errorsTheTrailerMisses : Obligations.ErrorsTheTrailerMisses := by
  refine ⟨fun h g x a hxor hsum => ?general, fun h g x a hperm => ?permutation,
    fun p m q c d x a hc hd => ?bit7, fun p m q c d x a j hj hc hd => ?flip⟩
  case general => exact valid_append_congr hxor (byteSum_eq_iff.2 hsum) x a
  case permutation => exact valid_append_congr (xorFold_perm hperm) (byteSum_perm hperm) x a
  case bit7 =>
    rw [or_bit7_eq_flip hc, or_bit7_eq_flip hd]
    exact valid_replace_two (xor_mask_xor_mask c d _)
      (add_flip_bit7_clear (getLsbD_seven_of_lt hc) (getLsbD_seven_of_lt hd)) p m q x a
  case flip =>
    exact valid_replace_two (xor_mask_xor_mask c d _) (add_flip_set_clear hj hc hd) p m q x a

/-- Settles O16: both arms of `exec` write the answer only. -/
theorem codecFunctionsAnswerAndChangeNothing : Obligations.CodecFunctionsAnswerAndChangeNothing :=
  fun s bytes => ⟨exec_trailer bytes s, exec_valid bytes s⟩

end

section
/-! SUPPORT. A scan operation has its step exactly where the decode selects it (`41_frame_extractor.md`
R101), and what its step does to the cursor (R108). -/

namespace Sys2Proof

/-- Whatever is taken lies within the bytes present (R108). -/
theorem DecodesTo.cursor_within {cfg : Config} {w : List Byte} {k : Nat} {i : Instr}
    (h : DecodesTo cfg (w.drop k) i) (hk : k ≤ w.length) : k + (taken cfg i).length ≤ w.length := by
  have hle := h.taken_prefix.length_le
  rw [List.length_drop] at hle
  omega

end Sys2Proof

namespace Sys2Proof.Machine

/-! ### What is selected has its step -/

/-- The converse of `scansTo_of_exec`. -/
theorem ScansTo.exec_eq {s t : State} {i : Instr} (h : ScansTo s i t) : exec i s = .next t := by
  cases h with
  | endPass hs => exact (execEnd_eq_next_iff s _).2 ⟨hs, rfl⟩
  | skip b hs => exact (execSkip_eq_next_iff b s _).2 ⟨hs, rfl⟩
  | waith r hs => exact (execWaith_eq_next_iff r s _).2 ⟨hs, rfl⟩
  | waitb r hs => exact (execWaitb_eq_next_iff r s _).2 ⟨hs, rfl⟩
  | reject f hs => exact (execReject_eq_next_iff f s _).2 ⟨hs, rfl⟩
  | emit f hs => exact (execEmit_eq_next_iff f s _).2 ⟨hs, rfl⟩

/-- The selected operation has a step. -/
theorem exists_scansTo {s : State} {i : Instr} (h : s.selected = .ok i) : ∃ t, ScansTo s i t := by
  have hi := State.isScan_of_selected s i h
  cases i with
  | endPass => exact ⟨_, .endPass h⟩
  | skip b => exact ⟨_, .skip b h⟩
  | waith r => exact ⟨_, .waith r h⟩
  | waitb r => exact ⟨_, .waitb r h⟩
  | reject f => exact ⟨_, .reject f h⟩
  | emit f => exact ⟨_, .emit f h⟩
  | trailer | valid | push | reset | extract => cases hi

/-- Bytes at the cursor show that it lies within the work buffer, and their decode is what is selected. -/
theorem State.selected_of_bytes {s : State} {i : Instr} {r : List Byte} (hp : s.phase = .scan)
    (hr : s.w.drop s.k = r) (hne : r ≠ []) (h : DecodesTo block r i) : s.selected = .ok i := by
  subst hr
  have hk : s.k ≤ s.w.length := by
    by_contra hk
    exact hne (List.drop_eq_nil_of_le (by omega))
  exact (State.selected_eq_ok_iff s i).2 ⟨hp, hk, h.decode_eq⟩

/-! ### Candidates written out as covered bytes and trailer (R60, R64) -/

theorem isCandidate_append {h : List Byte} {len : Byte} (hsync : h.head? = some block.sync)
    (hlen : h[4]? = some len) (hh : h.length = len.toNat + 5) (x a : Byte) :
    isCandidate block (h ++ [x, a]) = true := by
  have htotal : block.totalLen len = (h ++ [x, a]).length := by
    rw [totalLen_block, List.length_append, hh]; rfl
  rw [isCandidate_iff]
  exact ⟨by rw [List.head?_append, hsync]; rfl,
    declaredLen_append block h _ _ ((declaredLen_eq_some_iff block h _).2 ⟨len, hlen, htotal⟩)⟩

theorem rejectEvent_append (h : List Byte) (sx sa : Byte) :
    rejectEvent (h ++ [sx, sa]) =
      some (.reject (h.length + 2) (trailer block h).1 (trailer block h).2 sx sa) := by
  rw [rejectEvent, storedTrailer_append block rfl, covered_append block rfl, List.length_append]
  rfl

/-- A well-formed operation that goes on with the pass is selected where its bytes stand at the cursor. -/
theorem State.selected_of_wf {s : State} {i : Instr} {bs t : List Byte} (hp : s.phase = .scan)
    (hr : s.w.drop s.k = bs ++ t) (hwf : i.wf block = true) (hbs : encode i = some bs)
    (hi : i.continuesPass = true) (hne : bs ≠ []) : s.selected = .ok i :=
  State.selected_of_bytes hp hr (List.append_ne_nil_of_left_ne_nil hne t)
    (decodesTo_of_wf block_wellFormed hwf hbs fun hstop => by rw [hi] at hstop; cases hstop)

/-! ### The cursor of an operation that goes on with the pass -/

theorem isScan_of_continuesPass {i : Instr} (hi : i.continuesPass = true) : i.isScan = true := by
  cases i with
  | skip | reject | emit => rfl
  | _ => cases hi

/-- The cursor moves forward, to at most `|W|` (R108). -/
theorem ScansTo.cursor_forward {s t : State} {i : Instr} (h : ScansTo s i t)
    (hi : i.continuesPass = true) : s.k + 1 ≤ t.k ∧ t.k ≤ s.w.length := by
  obtain ⟨-, hk, -⟩ := (State.selected_eq_ok_iff s i).1 h.selected
  have hdec := State.decodesTo_of_selected h.selected
  rw [h.cursor_eq hi]
  exact ⟨Nat.add_le_add_left (hdec.taken_pos block_wellFormed hi) _, hdec.cursor_within hk⟩

/-- `SKIP` and `REJECT` drop one byte (R102, R105). -/
theorem length_taken_of_ne_emit {cfg : Config} {i : Instr} (hi : i.continuesPass = true)
    (hne : ∀ f, i ≠ .emit f) : (taken cfg i).length = 1 := by
  cases i with
  | skip | reject => rfl
  | emit f => exact absurd rfl (hne f)
  | _ => cases hi

end Sys2Proof.Machine
end

section
/-! The statements about each scan operation's step, and which one is enabled (`41_frame_extractor.md`
R101 to R108). -/

open Sys2Proof Sys2Proof.Machine

/-- Settles O6. -/
theorem endStopsThePass : Obligations.EndStopsThePass := by
  intro s hp hk
  have hnil : s.w.drop s.k = [] := List.drop_eq_nil_of_le (Nat.le_of_eq hk.symm)
  have hs : s.selected = .ok .endPass :=
    (State.selected_eq_ok_iff s _).2 ⟨hp, Nat.le_of_eq hk, decode_endPass_iff.2 hnil⟩
  exact (ScansTo.endPass hs).exec_eq

/-- Settles O7. -/
theorem skipDropsOneByte : Obligations.SkipDropsOneByte := by
  intro s b t hp hr hb
  have hs := State.selected_of_bytes hp hr (List.cons_ne_nil b t) (.skip b t rfl hb)
  exact (ScansTo.skip b hs).exec_eq

/-- Settles O8. -/
theorem waithStoresTheTail : Obligations.WaithStoresTheTail := by
  intro s r hp hr hsync hn
  have hne : r ≠ [] := by rintro rfl; cases hsync
  have hs := State.selected_of_bytes hp hr hne (.waith hsync hn)
  exact ⟨(ScansTo.waith r hs).exec_eq, List.length_pos_iff.2 hne, Nat.le_of_lt_succ hn⟩

/-- Settles O9: the length byte is the fifth, so a tail that shows it holds a whole header. -/
theorem waitbStoresTheTail : Obligations.WaitbStoresTheTail := by
  intro s r len hp hr hsync hlen hn
  have hh : 5 ≤ r.length := (List.getElem?_eq_some_iff.1 hlen).1
  have hd : declaredLen block r = some (len.toNat + 7) :=
    (declaredLen_eq_some_iff block r _).2 ⟨len, hlen, totalLen_block len⟩
  have hs := State.selected_of_bytes hp hr (List.ne_nil_of_length_pos (by omega))
    (.waitb _ hsync hh hd hn)
  have hmax := len.isLt
  exact ⟨(ScansTo.waitb r hs).exec_eq, hh, by omega⟩

/-- Settles O10. -/
theorem rejectDropsTheSyncByte : Obligations.RejectDropsTheSyncByte := by
  intro s h t len sx sa hp hr hsync hlen hh hne
  have hv : valid block (h ++ [sx, sa]) = false :=
    Bool.eq_false_iff.2 fun hv => hne ((valid_append_iff rfl h sx sa).1 hv)
  have hwf : (Instr.reject (h ++ [sx, sa])).wf block = true :=
    (wf_reject_iff block _).2 ⟨isCandidate_append hsync hlen hh sx sa, hv⟩
  have hs := State.selected_of_wf hp hr hwf rfl rfl (by simp)
  have hstep := (ScansTo.reject _ hs).exec_eq
  rw [rejectEvent_append, hh] at hstep
  exact hstep

/-- Settles O11. -/
theorem emitDeliversTheFrame : Obligations.EmitDeliversTheFrame := by
  intro s h t len x a hp hr hsync hlen hh htrailer
  have hwf : (Instr.emit (h ++ [x, a])).wf block = true :=
    Bool.and_eq_true_iff.2
      ⟨isCandidate_append hsync hlen hh x a, (valid_append_iff rfl h x a).2 htrailer⟩
  have hs := State.selected_of_wf hp hr hwf rfl rfl (by simp)
  have hstep := (ScansTo.emit _ hs).exec_eq
  rw [List.length_append, hh] at hstep
  exact hstep

/-- Settles O12: the decode answers one operation, and an operation has a step only where it is that one. -/
theorem exactlyOneScanOperationIsEnabled : Obligations.ExactlyOneScanOperationIsEnabled := by
  refine ⟨fun s hp hk => ?scan, fun s i hp hi t h => ?idle⟩
  case scan =>
    obtain ⟨i, hdec⟩ := exists_decode block_wellFormed (s.w.drop s.k)
    have hs : s.selected = .ok i := (State.selected_eq_ok_iff s i).2 ⟨hp, hk, hdec⟩
    obtain ⟨t, ht⟩ := exists_scansTo hs
    refine ⟨i, hdec, State.isScan_of_selected s i hs, ⟨t, ht.exec_eq⟩, ?_⟩
    rintro j hj ⟨u, hu⟩
    have hs' := (scansTo_of_exec hj hu).selected
    rw [hs] at hs'
    exact (Except.ok.inj hs').symm
  case idle =>
    have hscan := State.phase_of_selected (scansTo_of_exec hi h).selected
    rw [hp] at hscan
    cases hscan

/-- Settles O29. -/
theorem stepRunsTheDecodedOperation : Obligations.StepRunsTheDecodedOperation := by
  intro s i hp hr hk hdec
  exact step_eq_exec (fun h hh => hr (by rw [hh]; rfl))
    ((State.selected_eq_ok_iff s i).2 ⟨hp, hk, hdec⟩)

/-- Settles O33: an operation that ends in `SCAN` goes on with the pass. -/
theorem cursorMovesForwardWithinTheBuffer : Obligations.CursorMovesForwardWithinTheBuffer := by
  intro s t i hinv hi h hp
  have ht := scansTo_of_exec hi h
  have hc : i.continuesPass = true := by
    by_contra hc
    rw [(ht.stops (Bool.eq_false_iff.2 hc)).1] at hp
    cases hp
  obtain ⟨hforward, hwithin⟩ := ht.cursor_forward hc
  obtain ⟨-, hw⟩ := ht.continues hc
  rw [hw]
  refine ⟨hforward, hwithin, rfl, hinv.capacity, ?emit, fun hne => ?byOne⟩
  case emit => rintro f rfl; exact ht.cursor_eq hc
  case byOne => rw [ht.cursor_eq hc, length_taken_of_ne_emit hc hne]

end

section
/-! SUPPORT. A pass as a function of the bytes at its cursor alone (`41_frame_extractor.md` R110 to R112),
operation by operation. -/

namespace Sys2Proof.Machine

variable {cfg : Config}

/-- A pass reads nothing before its cursor: earlier bytes cut off change nothing (R111). -/
theorem scan_drop (hw : cfg.WellFormed) (w : List Byte) (j k : Nat) :
    scan cfg (w.drop j) k = scan cfg w (j + k) := by
  induction k using scan_induction (w := w.drop j) hw with
  | stops k i h hi =>
    have h' : DecodesTo cfg (w.drop (j + k)) i := List.drop_drop ▸ h
    rw [scan_of_stops hw h hi, scan_of_stops hw h' hi, List.drop_drop]
  | goesOn k i h hi ih =>
    have h' : DecodesTo cfg (w.drop (j + k)) i := List.drop_drop ▸ h
    rw [scan_of_continues hw h hi, scan_of_continues hw h' hi, ih, Nat.add_assoc]

/-- Where an operation goes on, the pass is what it emits and then the pass over the rest. -/
theorem scan_taken_append (hw : cfg.WellFormed) {r : List Byte} {i : Instr}
    (h : DecodesTo cfg (taken cfg i ++ r) i) (hi : i.continuesPass = true) :
    scan cfg (taken cfg i ++ r) 0 = (emitted i ++ (scan cfg r 0).1, (scan cfg r 0).2) := by
  rw [scan_of_continues (w := taken cfg i ++ r) (k := 0) hw h hi, Nat.zero_add]
  have hrest := scan_drop hw (taken cfg i ++ r) (taken cfg i).length 0
  rw [List.drop_left, Nat.add_zero] at hrest
  rw [hrest]

/-- Where an operation stops the pass, all bytes are the residual. -/
theorem scan_zero_of_stops (hw : cfg.WellFormed) {r : List Byte} {i : Instr} (h : DecodesTo cfg r i)
    (hi : i.continuesPass = false) : scan cfg r 0 = ([], r) :=
  scan_of_stops (w := r) (k := 0) hw h hi

/-- Induction along a pass over the bytes present: a property that holds where a pass stops, and of an
operation's bytes before a rest of which it holds, holds of all bytes. -/
theorem bytes_induction (hw : cfg.WellFormed) {P : List Byte → Prop}
    (stops : ∀ r i, DecodesTo cfg r i → i.continuesPass = false → P r)
    (goesOn : ∀ r i, DecodesTo cfg (taken cfg i ++ r) i → i.continuesPass = true → P r →
      P (taken cfg i ++ r)) (w : List Byte) : P w := by
  have hall : ∀ k, P (w.drop k) := scan_induction hw (fun k i => stops (w.drop k) i)
    fun k i h hi ih => by
      have hsplit := h.taken_append_drop
      rw [← hsplit] at h ⊢
      exact goesOn _ i h hi ih
  exact hall 0

/-- An operation that goes on with the pass does not depend on what arrives later (R112). -/
theorem decodesTo_append (hw : cfg.WellFormed) {r : List Byte} {i : Instr} (h : DecodesTo cfg r i)
    (hi : i.continuesPass = true) (t : List Byte) : DecodesTo cfg (r ++ t) i := by
  obtain ⟨bs, hbs⟩ := exists_encode (isScan_of_continuesPass hi)
  obtain ⟨u, rfl⟩ := h.encode_prefix hbs
  rw [List.append_assoc]
  exact decodesTo_of_wf hw (h.wf hw) hbs fun hstop => by rw [hi] at hstop; cases hstop

/-! ### Read boundaries and residuals (R113 to R115) -/

/-- A pass over more bytes is the pass over the first ones, then a pass over its residual and the rest. -/
theorem scan_append (hw : cfg.WellFormed) (w t : List Byte) :
    scan cfg (w ++ t) 0 =
      ((scan cfg w 0).1 ++ (scan cfg ((scan cfg w 0).2 ++ t) 0).1,
        (scan cfg ((scan cfg w 0).2 ++ t) 0).2) := by
  induction w using bytes_induction hw with
  | stops r i h hi => rw [scan_zero_of_stops hw h hi]; rfl
  | goesOn r i h hi ih =>
    have h' : DecodesTo cfg (taken cfg i ++ (r ++ t)) i :=
      List.append_assoc _ r t ▸ decodesTo_append hw h hi t
    rw [List.append_assoc, scan_taken_append hw h' hi, scan_taken_append hw h hi, ih,
      List.append_assoc]

theorem extract_append (hw : cfg.WellFormed) (r s t : List Byte) :
    extract cfg r (s ++ t) =
      ((extract cfg r s).1 ++ (extract cfg (extract cfg r s).2 t).1,
        (extract cfg (extract cfg r s).2 t).2) := by
  rw [extract, ← List.append_assoc]
  exact scan_append hw (r ++ s) t

/-- Successive passes over the chunks of a stream are one pass over the stream. -/
theorem extractAll_cons (hw : cfg.WellFormed) (cs : List (List Byte)) (r c : List Byte) :
    extractAll cfg r (c :: cs) = extract cfg r (c :: cs).flatten := by
  induction cs generalizing r c with
  | nil => simp [extractAll]
  | cons d cs ih =>
    rw [List.flatten_cons, extract_append hw, ← ih]
    rfl

/-- From an empty residual on, no chunk at all is as good as an empty one. -/
theorem extractAll_nil_eq (hw : cfg.WellFormed) (cs : List (List Byte)) :
    extractAll cfg [] cs = extract cfg [] cs.flatten := by
  cases cs with
  | nil => exact (scan_zero_of_stops hw (.endPass rfl) rfl).symm
  | cons c cs => exact extractAll_cons hw cs [] c

/-- On the residual a pass leaves, an operation stops: none, `WAITH` or `WAITB` selected it (R113, R114). -/
theorem exists_stops_residual (hw : cfg.WellFormed) (w : List Byte) :
    ∃ i, DecodesTo cfg (scan cfg w 0).2 i ∧ i.continuesPass = false := by
  induction w using bytes_induction hw with
  | stops r i h hi => rw [scan_zero_of_stops hw h hi]; exact ⟨i, h, hi⟩
  | goesOn r i h hi ih => rw [scan_taken_append hw h hi]; exact ih

/-! ### Frames and noise (R116, R118) -/

/-- A frame at the cursor is what is decoded, whatever follows it. -/
theorem decodesTo_emit_append (hw : cfg.WellFormed) {f : List Byte} (hf : isFrame cfg f = true)
    (t : List Byte) : DecodesTo cfg (f ++ t) (.emit f) :=
  decodesTo_of_wf hw ((wf_emit_iff cfg f).2 hf) rfl nofun

/-- A frame at the cursor is emitted, and the pass goes on after it. -/
theorem scan_frame_append (hw : cfg.WellFormed) {f : List Byte} (hf : isFrame cfg f = true)
    (t : List Byte) : scan cfg (f ++ t) 0 = (⟨f⟩ :: (scan cfg t 0).1, (scan cfg t 0).2) :=
  scan_taken_append (i := .emit f) hw (decodesTo_emit_append hw hf t) rfl

/-- Bytes other than the sync marker are dropped one by one. -/
theorem scan_noise_append (hw : cfg.WellFormed) {noise : List Byte}
    (hnoise : ∀ b ∈ noise, b ≠ cfg.sync) (t : List Byte) :
    scan cfg (noise ++ t) 0 = scan cfg t 0 := by
  induction noise with
  | nil => rfl
  | cons b noise ih =>
    obtain ⟨hb, hrest⟩ := List.forall_mem_cons.1 hnoise
    exact (scan_taken_append (i := .skip b) hw (.skip b _ rfl hb) rfl).trans (ih hrest)

/-- A clean stream is its frames, with nothing left over (R117). -/
theorem extract_frames (hw : cfg.WellFormed) {fs : List (List Byte)}
    (hfs : ∀ f ∈ fs, isFrame cfg f = true) : extract cfg [] fs.flatten = (fs.map Frame.mk, []) := by
  induction fs with
  | nil => exact scan_zero_of_stops hw (.endPass rfl) rfl
  | cons f fs ih =>
    obtain ⟨hf, hrest⟩ := List.forall_mem_cons.1 hfs
    refine (scan_frame_append hw hf fs.flatten).trans ?_
    rw [show scan cfg fs.flatten 0 = _ from ih hrest]
    rfl

/-- The first bytes of a frame wait for the rest of it (R103, R104). -/
theorem decodesTo_frame_part (hw : cfg.WellFormed) {p q : List Byte}
    (hf : isFrame cfg (p ++ q) = true) (hp : p ≠ []) (hq : q ≠ []) :
    DecodesTo cfg p (.waith p) ∨ DecodesTo cfg p (.waitb p) := by
  obtain ⟨hsync, hdecl, -⟩ := (isFrame_iff cfg _).1 hf
  have hs : p.head? = some cfg.sync := by rwa [List.head?_append_of_ne_nil p hp] at hsync
  rcases Nat.lt_or_ge p.length cfg.hdrLen with hshort | hh
  · exact .inl (.waith hs hshort)
  · obtain ⟨n, hd⟩ := exists_declaredLen cfg hw p hh
    obtain rfl : (p ++ q).length = n :=
      Option.some.inj (hdecl.symm.trans (declaredLen_append cfg p q n hd))
    have hlt : p.length < (p ++ q).length := by
      rw [List.length_append]
      exact Nat.lt_add_of_pos_right (List.length_pos_iff.2 hq)
    exact .inr (.waitb _ hs hh hd hlt)

/-! ### The cursor values a pass takes -/

/-- An operation that goes on leaves the cursor after the bytes it takes (R119). -/
theorem nextCursor_eq {i : Instr} (hi : i.continuesPass = true) (k : Nat) :
    nextCursor i k = some (k + (taken cfg i).length) := by
  cases i with
  | skip | reject | emit => rfl
  | _ => cases hi

theorem visitedFrom_of_continues {w : List Byte} {k : Nat} {i : Instr} (n : Nat)
    (h : DecodesTo cfg (w.drop k) i) (hi : i.continuesPass = true) :
    visitedFrom cfg w (n + 1) k = k :: visitedFrom cfg w n (k + (taken cfg i).length) := by
  rw [visitedFrom, h.decode_eq]
  dsimp only
  rw [nextCursor_eq (cfg := cfg) hi]

theorem mem_visitedFrom_self (w : List Byte) (n k : Nat) : k ∈ visitedFrom cfg w (n + 1) k :=
  List.mem_cons_self

/-- At the cursor `k` an operation goes on with the pass, and it emits no slice that reaches beyond the
offset `b`: both provisos of R118. -/
def GoesOnWithin (cfg : Config) (w : List Byte) (b k : Nat) : Prop :=
  ∃ i, decode cfg (w.drop k) = .ok i ∧ i.continuesPass = true ∧ ∀ g, i = .emit g → k + g.length ≤ b

/-- Before the offset, all that such an operation takes lies before it. -/
theorem GoesOnWithin.exists_decodesTo {w : List Byte} {b k : Nat} (h : GoesOnWithin cfg w b k)
    (hk : k < b) : ∃ i, DecodesTo cfg (w.drop k) i ∧ i.continuesPass = true ∧
      k + (taken cfg i).length ≤ b := by
  obtain ⟨i, hdec, hi, hwithin⟩ := h
  refine ⟨i, decode_cases cfg _ i hdec, hi, ?_⟩
  cases i with
  | skip | reject => exact hk
  | emit g => exact hwithin g rfl
  | _ => cases hi

/-- What is taken from bytes within a first part is taken from that part. -/
theorem taken_append_drop_of_within {p t : List Byte} {k : Nat} {i : Instr}
    (h : DecodesTo cfg ((p ++ t).drop k) i) (hk : k + (taken cfg i).length ≤ p.length) :
    taken cfg i ++ p.drop (k + (taken cfg i).length) = p.drop k := by
  have hdrop : (p ++ t).drop k = p.drop k ++ t := List.drop_append_of_le_length (by omega)
  have hprefix : taken cfg i <+: p.drop k :=
    List.prefix_of_prefix_length_le (hdrop ▸ h.taken_prefix) (List.prefix_append _ t)
      (by rw [List.length_drop]; omega)
  rw [← List.drop_drop]
  exact List.prefix_iff_eq_append.1 hprefix

/-- R118 from any cursor before the frame on, where more operations are allowed than bytes stand before
the frame. -/
theorem recovers_from (hw : cfg.WellFormed) {p f t : List Byte} (hf : isFrame cfg f = true) (n k : Nat)
    (hk : k ≤ p.length) (hn : p.length - k < n)
    (hgo : ∀ m ∈ visitedFrom cfg (p ++ (f ++ t)) n k, m < p.length →
      GoesOnWithin cfg (p ++ (f ++ t)) p.length m) :
    p.length ∈ visitedFrom cfg (p ++ (f ++ t)) n k ∧
      ∃ fs, Cuts cfg (p.drop k) (fs, []) ∧
        scan cfg (p ++ (f ++ t)) k = (fs ++ ⟨f⟩ :: (scan cfg t 0).1, (scan cfg t 0).2) := by
  induction n generalizing k with
  | zero => exact absurd hn (Nat.not_lt_zero _)
  | succ n ih =>
    rcases Nat.eq_or_lt_of_le hk with rfl | hlt
    · refine ⟨mem_visitedFrom_self _ n _, [], ?_, ?_⟩
      · rw [List.drop_length]; exact Cuts.residualOnly cfg []
      · rw [← Nat.add_zero p.length, ← scan_drop hw, List.drop_left]
        exact scan_frame_append hw hf t
    · obtain ⟨i, h, hi, hnext⟩ := (hgo k (mem_visitedFrom_self _ n k) hlt).exists_decodesTo hlt
      have hpos := h.taken_pos hw hi
      have hvis := visitedFrom_of_continues n h hi
      obtain ⟨hmem, fs, hcuts, hscan⟩ := ih _ hnext (by omega) fun m hm =>
        hgo m (hvis ▸ List.mem_cons_of_mem k hm)
      refine ⟨hvis ▸ List.mem_cons_of_mem k hmem, emitted i ++ fs, ?_, ?_⟩
      · rw [← taken_append_drop_of_within h hnext]
        exact hcuts.prepend_taken hw h
      · rw [scan_of_continues hw h hi, hscan, List.append_assoc]

end Sys2Proof.Machine
end

section
/-! The statements about the pass as a function (`41_frame_extractor.md` R111, R112, R114 to R116,
R118). -/

open Sys2Proof Sys2Proof.Machine

/-- Settles O37. -/
theorem scanLooksOnlyForward : Obligations.ScanLooksOnlyForward :=
  fun _ w k hw _ => (scan_drop hw w k 0).symm

/-- Settles O38. -/
theorem prefixStability : Obligations.PrefixStability := by
  intro cfg w t k i hw hk hdec
  have hdrop : (w ++ t).drop k = w.drop k ++ t := List.drop_append_of_le_length hk
  rw [← hdrop]
  refine ⟨fun hi => ?_, fun _ => (scan_drop hw (w ++ t) k 0).symm⟩
  rw [hdrop]
  exact (decodesTo_append hw (decode_cases cfg _ i hdec) hi t).decode_eq

/-- Settles O39. -/
theorem readBoundaryIndependence : Obligations.ReadBoundaryIndependence :=
  ⟨fun _ r s t hw => extract_append hw r s t, fun _ r c cs hw => extractAll_cons hw cs r c⟩

/-- Settles O41: the residual is what the operation that stopped the pass was decoded from. The whole
frame further on stands inside the payload that an unfinished candidate declares. -/
theorem residualHeadIsIncomplete : Obligations.ResidualHeadIsIncomplete := by
  refine ⟨fun cfg rb c hw hne => ?head, ?whole⟩
  case head =>
    obtain ⟨i, h, hi⟩ := exists_stops_residual hw (rb ++ c)
    change DecodesTo cfg (extract cfg rb c).2 i at h
    generalize (extract cfg rb c).2 = r at h hne ⊢
    cases h with
    | endPass hnil => exact absurd hnil hne
    | waith hsync hn => exact ⟨hsync, .inl hn⟩
    | waitb n hsync _ hd hn => exact ⟨hsync, .inr ⟨n, hd, hn⟩⟩
    | skip | reject | emit => cases hi
  case whole =>
    exact ⟨_, [0xF7#8, 0x01#8, 0x02#8, 0x03#8, 0x10#8], buildFrame block 0x36#8 0x1F#8 0x81#8 [], [],
      scan_zero_of_stops block_wellFormed (.waitb 23 rfl (by decide) rfl (by decide)) rfl,
      List.cons_ne_nil _ _, isFrame_buildFrame _ _ _ (Nat.zero_le 255)⟩

/-- Settles O42: the decode at a frame's first byte is `EMIT`, and at the first byte of a part of it
`WAITH` or `WAITB`, which keeps the whole part. -/
theorem syncByteInsideAFrameDoesNoHarm : Obligations.SyncByteInsideAFrameDoesNoHarm := by
  refine ⟨fun s f t hf hp hr => ?machine, fun cfg f hw hf => ⟨fun t => ?whole, ?cut⟩⟩
  case machine =>
    have hsync : f.head? = some block.sync := ((isFrame_iff block f).1 hf).1
    have hs := State.selected_of_wf hp hr ((wf_emit_iff block f).2 hf) rfl rfl
      (by rintro rfl; cases hsync)
    have hstep := ScansTo.emit f hs
    obtain ⟨hphase, hwork⟩ := hstep.continues rfl
    exact ⟨_, hstep.exec_eq, hstep.cursor_eq rfl, hstep.out_eq, hwork, hphase⟩
  case whole => exact (decodesTo_emit_append hw hf t).decode_eq
  case cut =>
    rintro p q rfl hp hq
    have hpart := decodesTo_frame_part hw hf hp hq
    have hwait : extract cfg [] p = ([], p) :=
      hpart.elim (fun h => scan_zero_of_stops hw h rfl) fun h => scan_zero_of_stops hw h rfl
    refine ⟨hpart.imp DecodesTo.decode_eq DecodesTo.decode_eq, fun t => ?_⟩
    rw [hwait, extract, ← List.append_assoc]
    exact scan_frame_append hw hf t

/-- Settles O43. -/
theorem noiseBeforeAFrameIsDropped : Obligations.NoiseBeforeAFrameIsDropped := by
  intro cfg noise f t hw hnoise hf
  rw [List.append_assoc, scan_noise_append hw hnoise, scan_frame_append hw hf]

/-- Settles O44, by induction on the operations before the frame. -/
theorem recoveryAfterNoise : Obligations.RecoveryAfterNoise := by
  intro cfg p f t hw hf hgo
  rw [List.append_assoc] at hgo ⊢
  have hfuel : p.length - 0 < (p ++ (f ++ t)).length + 1 := by rw [List.length_append]; omega
  obtain ⟨hmem, fs, hcuts, hscan⟩ := recovers_from hw hf _ 0 (Nat.zero_le _) hfuel hgo
  obtain ⟨gaps, hgaps⟩ := hcuts.slices
  rw [List.append_nil] at hgaps
  exact ⟨hmem, gaps, fs, hgaps, hscan⟩

end

section
/-! SUPPORT. Runs of steps (`60_exceptions.md` R155, R136). -/

namespace Sys2Proof.Machine

/-- A run that reaches `t` goes on from `t`. -/
theorem run_add {m : Nat} {s t : State} (h : run m s = .next t) (n : Nat) :
    run (m + n) s = run n t := by
  induction m generalizing s with
  | zero => cases h; rw [Nat.zero_add]
  | succ m ih =>
    obtain ⟨u, hu, hrest⟩ := (andThen_eq_next_iff _ _ _).1 h
    rw [Nat.succ_add, run_succ _ s u hu, ih hrest]

/-- At the end of a run the machine rests (R155). -/
theorem run_of_quiescent {s : State} (h : s.Quiescent) (n : Nat) : run n s = .next s := by
  induction n with
  | zero => rfl
  | succ n ih => rw [run_succ n s s (step_nothing h.1 h.2), ih]

end Sys2Proof.Machine
end

section
/-! SUPPORT. A whole pass of the machine (`41_frame_extractor.md` R109, R110): the scan operations that go
on and the one that stops, as `runPass` and as single steps, and that it computes `scan`. -/

namespace Sys2Proof.Machine

theorem ScansTo.scanStep_eq {s t : State} {i : Instr} (h : ScansTo s i t) : scanStep s = .next t :=
  (scanStep_eq_exec s i h.selected).trans h.exec_eq

/-- A pass of so many scan operations, of which only the last stops (R109). -/
inductive Pass : Nat → State → State → Prop
  | stops {s t : State} {i : Instr} (h : ScansTo s i t) (hi : i.continuesPass = false) : Pass 1 s t
  | goesOn {n : Nat} {s u t : State} {i : Instr} (h : ScansTo s i u) (hi : i.continuesPass = true)
      (p : Pass n u t) : Pass (n + 1) s t

/-- From every cursor within the work buffer a pass runs to its stop: each operation that goes on uses up
at least one byte. -/
theorem exists_pass {s : State} (hp : s.phase = .scan) (hk : s.k ≤ s.w.length) :
    ∃ n t, n ≤ s.w.length - s.k + 1 ∧ Pass n s t := by
  suffices ∀ k w, s.w = w → s.k = k → ∃ n t, n ≤ s.w.length - s.k + 1 ∧ Pass n s t from
    this s.k s.w rfl rfl
  intro k w hw hsk
  induction k using scan_induction (w := w) block_wellFormed generalizing s with
  | stops k i h hi =>
    subst hw hsk
    obtain ⟨t, ht⟩ := exists_scansTo ((State.selected_eq_ok_iff s i).2 ⟨hp, hk, h.decode_eq⟩)
    exact ⟨1, t, Nat.le_add_left 1 _, .stops ht hi⟩
  | goesOn k i h hi ih =>
    subst hw hsk
    obtain ⟨u, hu⟩ := exists_scansTo ((State.selected_eq_ok_iff s i).2 ⟨hp, hk, h.decode_eq⟩)
    obtain ⟨hphase, hwork⟩ := hu.continues hi
    obtain ⟨hforward, hwithin⟩ := hu.cursor_forward hi
    obtain ⟨n, t, hn, pass⟩ := ih hphase (hwork ▸ hwithin) hwork (hu.cursor_eq hi)
    rw [hwork] at hn
    exact ⟨n + 1, t, by omega, .goesOn hu hi pass⟩

namespace Pass

variable {n : Nat} {s t : State}

theorem phase (p : Pass n s t) : s.phase = .scan := by
  cases p with
  | stops h | goesOn h => exact State.phase_of_selected h.selected

theorem idle (p : Pass n s t) : t.phase = .idle := by
  induction p with
  | stops h hi => exact (h.stops hi).1
  | goesOn _ _ _ ih => exact ih

theorem pos (p : Pass n s t) : 1 ≤ n := by
  cases p with
  | stops => exact Nat.le_refl 1
  | goesOn => exact Nat.le_add_left 1 _

/-! ### As `runPass` -/

theorem runPass_eq (p : Pass n s t) {m : Nat} (hm : n ≤ m) : runPass m s = .next t := by
  induction p generalizing m with
  | stops h hi =>
    obtain ⟨m, rfl⟩ := Nat.exists_eq_add_of_le' hm
    rw [runPass, h.scanStep_eq, andThen, (h.stops hi).1]
  | goesOn h hi p ih =>
    obtain ⟨m, rfl⟩ := Nat.exists_eq_add_of_le' (Nat.le_trans (Nat.le_add_left 1 _) hm)
    rw [runPass, h.scanStep_eq, andThen, p.phase]
    exact ih (Nat.le_of_succ_le_succ hm)

end Pass

/-! ### As single steps -/

/-- The host asks nothing that changes a pass in progress: no move, or a chunk that waits (R168). -/
def State.HostHolds (s : State) : Prop := s.host = [] ∨ ∃ c h, s.host = .push c :: h

theorem State.HostHolds.afterGap_host {s : State} (hh : s.HostHolds) : afterGap s.host = s.host := by
  rcases hh with hh | ⟨c, h, hh⟩ <;> rw [hh] <;> rfl

theorem ScansTo.hostHolds {s t : State} {i : Instr} (h : ScansTo s i t) (hh : s.HostHolds) :
    t.HostHolds := by
  unfold State.HostHolds
  rw [h.host_eq]
  exact hh

/-- Under such a host the step is the scan operation and nothing else. -/
theorem ScansTo.step_eq {s t : State} {i : Instr} (h : ScansTo s i t) (hh : s.HostHolds) :
    step s = .next t := by
  have hreset : ∀ l, s.host ≠ .reset :: l := by
    rintro l hl
    rcases hh with hh | ⟨c, l', hh⟩ <;> rw [hh] at hl <;> cases hl
  rw [step_eq_exec hreset h.selected, hh.afterGap_host]
  exact h.exec_eq

namespace Pass

variable {n : Nat} {s t : State}

theorem run_eq (p : Pass n s t) (hh : s.HostHolds) : run n s = .next t := by
  induction p with
  | stops h => exact run_succ 0 _ _ (h.step_eq hh)
  | goesOn h _ _ ih => rw [run_succ _ _ _ (h.step_eq hh), ih (h.hostHolds hh)]

/-- Before its last operation a pass is in `SCAN`. -/
theorem run_before (p : Pass n s t) (hh : s.HostHolds) {m : Nat} (hm : m < n) :
    ∃ u, run m s = .next u ∧ u.phase = .scan := by
  induction p generalizing m with
  | stops h =>
    obtain rfl : m = 0 := Nat.lt_one_iff.1 hm
    exact ⟨_, rfl, State.phase_of_selected h.selected⟩
  | goesOn h hi p ih =>
    cases m with
    | zero => exact ⟨_, rfl, State.phase_of_selected h.selected⟩
    | succ m =>
      rw [run_succ m _ _ (h.step_eq hh)]
      exact ih (h.hostHolds hh) (Nat.lt_of_succ_lt_succ hm)

end Pass

/-! ### What a pass computes -/

/-- The events an operation logs (R102, R105). -/
def logged : Instr → List Event
  | .skip b => [.skip b]
  | .reject f => (rejectEvent f).toList
  | _ => []

theorem ScansTo.log_eq {s t : State} {i : Instr} (h : ScansTo s i t) : t.log = s.log ++ logged i := by
  cases h with
  | skip | reject => rfl
  | endPass | waith | waitb | emit => exact (List.append_nil _).symm

/-- With no residual held, an operation that stops leaves the bytes at the cursor as residual. -/
theorem ScansTo.eq_afterPass {s t : State} {i : Instr} (h : ScansTo s i t)
    (hi : i.continuesPass = false) (hrb : s.rb = []) : t = s.afterPass [] [] (s.w.drop s.k) := by
  rw [State.afterPass, List.append_nil, List.append_nil]
  cases h with
  | endPass hs =>
    have hnil := decode_endPass_iff.1 ((State.selected_eq_ok_iff s _).1 hs).2.2
    rw [← hrb.trans hnil.symm]; rfl
  | waith r hs => rw [← State.tail_of_selected_wait (.inl hs)]; rfl
  | waitb r hs => rw [← State.tail_of_selected_wait (.inr hs)]; rfl
  | skip | reject | emit => cases hi

/-- What a pass does after an operation comes after what the operation emits and logs. -/
theorem ScansTo.afterPass_eq {s t : State} {i : Instr} (h : ScansTo s i t) (fs : List Frame)
    (es : List Event) (r : List Byte) :
    t.afterPass fs es r = s.afterPass (emitted i ++ fs) (logged i ++ es) r := by
  rw [State.afterPass, State.afterPass, h.out_eq, h.log_eq, List.append_assoc, List.append_assoc]
  cases h <;> rfl

theorem ScansTo.rb_nil {s t : State} {i : Instr} (h : ScansTo s i t) (hi : i.continuesPass = true)
    (hrb : s.rb = []) : t.rb = [] := by
  cases h with
  | skip | reject => exact hrb
  | emit => rfl
  | endPass | waith | waitb => cases hi

namespace Pass

variable {n : Nat} {s t : State}

/-- A pass computes `scan` (R110). -/
theorem eq_afterPass (p : Pass n s t) (hrb : s.rb = []) :
    ∃ es, t = s.afterPass (scan block s.w s.k).1 es (scan block s.w s.k).2 := by
  induction p with
  | stops h hi =>
    rw [scan_of_stops block_wellFormed (State.decodesTo_of_selected h.selected) hi]
    exact ⟨[], h.eq_afterPass hi hrb⟩
  | @goesOn n s u t i h hi _ ih =>
    obtain ⟨es, rfl⟩ := ih (h.rb_nil hi hrb)
    obtain ⟨-, hwork⟩ := h.continues hi
    refine ⟨logged i ++ es, ?_⟩
    rw [h.afterPass_eq, hwork, h.cursor_eq hi,
      scan_of_continues block_wellFormed (State.decodesTo_of_selected h.selected) hi]

/-- A pass keeps the invariants and the account of the stream's bytes (R32, R54). -/
theorem keeps (p : Pass n s t) (hinv : s.Inv) : t.Inv ∧ t.accounted = s.accounted := by
  have hrun := p.runPass_eq (Nat.le_refl n)
  exact ⟨runPass_keeps State.Inv (fun _ _ _ hv hi => hv.of_scansTo hi) n s t hinv hrun,
    runPass_accounted hinv hrun⟩

end Pass

/-- A chunk pushed on a residual starts a pass that ends as `EXTRACT` says (R110). -/
theorem exists_pass_of_push (s : State) (c : List Byte) :
    ∃ n es, n ≤ s.rb.length + c.length + 1 ∧
      Pass n (s.startPass c) (s.afterPass (extract block s.rb c).1 es (extract block s.rb c).2) := by
  obtain ⟨n, t, hn, p⟩ := exists_pass (State.startPass_phase s c) (Nat.zero_le _)
  obtain ⟨es, rfl⟩ := p.eq_afterPass (State.startPass_rb s c)
  rw [State.startPass_w, State.startPass_k, List.length_append] at hn
  exact ⟨n, es, hn, p⟩

/-- The run that takes a chunk from the script and passes over it (R110): what it leaves, and what it
keeps. -/
theorem exists_run_push {s : State} {c : List Byte} {h : List HostAct} (hp : s.phase = .idle)
    (hh : s.host = .push c :: h) (hc : c.length ≤ block.chunkMax) (hholds : (s.withHost h).HostHolds) :
    ∃ n es t, t = (s.withHost h).afterPass (extract block s.rb c).1 es (extract block s.rb c).2 ∧
      n ≤ s.rb.length + c.length + 2 ∧ run n s = .next t ∧
      (s.Inv → t.Inv ∧ t.accounted = s.accounted + c.length) := by
  have hpush : step s = .next ((s.withHost h).startPass c) :=
    (step_push hp hh).trans ((execPush_eq_next_iff c _ _).2 ⟨hp, hc, rfl⟩)
  obtain ⟨n, es, hn, p⟩ := exists_pass_of_push (s.withHost h) c
  refine ⟨n + 1, es, _, rfl, Nat.succ_le_succ hn, (run_succ n s _ hpush).trans (p.run_eq hholds),
    fun hinv => ?_⟩
  obtain ⟨hend, hacc⟩ := p.keeps ((hinv.withHost h).startPass hc)
  exact ⟨hend, hacc.trans (State.accounted_startPass (s := s.withHost h) hp c)⟩

/-- The residual of every pass has the form of R32 items 2, 5 and 6. -/
theorem residualForm_extract (rb c : List Byte) : ResidualForm (extract block rb c).2 := by
  obtain ⟨i, h, hi⟩ := exists_stops_residual block_wellFormed (rb ++ c)
  have hwf := h.wf block_wellFormed
  change DecodesTo block (extract block rb c).2 i at h
  generalize (extract block rb c).2 = r at h ⊢
  cases h with
  | endPass hnil => rw [hnil]; exact residualForm_nil
  | waith => exact residualForm_of_waith hwf
  | waitb => exact residualForm_of_waitb hwf
  | skip | reject | emit => cases hi

/-! ### The passes of a stream's chunks -/

/-- The end of a run in which the chunks are pushed one after the other (R115, R136). -/
structure Served (s : State) (cs : List (List Byte)) (t : State) : Prop where
  quiescent : t.Quiescent
  residual : t.rb = (extractAll block s.rb cs).2
  out : t.out = s.out ++ (extractAll block s.rb cs).1
  log : s.log <+: t.log
  account : t.accounted = s.accounted + cs.flatten.length

/-- Chunks in the host's script are served one pass each. -/
theorem exists_run_served {cs : List (List Byte)} (hcs : ∀ c ∈ cs, c.length ≤ block.chunkMax)
    {s : State} (hinv : s.Inv) (hp : s.phase = .idle) (hh : s.host = cs.map .push) :
    ∃ n t, run n s = .next t ∧ Served s cs t := by
  induction cs generalizing s with
  | nil =>
    exact ⟨0, s, rfl, ⟨hp, hh⟩, rfl, (List.append_nil _).symm, List.prefix_refl _, rfl⟩
  | cons c cs ih =>
    obtain ⟨hc, hrest⟩ := List.forall_mem_cons.1 hcs
    have hholds : (s.withHost (cs.map .push)).HostHolds := by
      cases cs with
      | nil => exact .inl rfl
      | cons d cs => exact .inr ⟨d, _, rfl⟩
    obtain ⟨m, es, u, rfl, -, hfirst, hkeeps⟩ := exists_run_push hp hh hc hholds
    obtain ⟨huinv, huacc⟩ := hkeeps hinv
    obtain ⟨n, t, hrun, hserved⟩ := ih hrest huinv rfl rfl
    refine ⟨m + n, t, (run_add hfirst n).trans hrun, hserved.quiescent, hserved.residual, ?out,
      (List.prefix_append s.log es).trans hserved.log, ?account⟩
    case out =>
      rw [hserved.out]
      exact List.append_assoc s.out _ _
    case account =>
      rw [hserved.account, huacc, List.flatten_cons, List.length_append, Nat.add_assoc]

end Sys2Proof.Machine
end

section
/-! The statements about whole passes of the machine (`41_frame_extractor.md` R109, R110, R113, R117). -/

open Sys2Proof Sys2Proof.Machine

/-- Settles O34: each operation that goes on uses up at least one byte. -/
theorem everyPassEnds : Obligations.EveryPassEnds := by
  refine ⟨fun s t i hi h => ?goesOn, fun s t i hscan hi h => ?stops, fun s hp hk hh => ?pass⟩
  case goesOn =>
    have ht := scansTo_of_exec (isScan_of_continuesPass hi) h
    obtain ⟨hphase, hwork⟩ := ht.continues hi
    obtain ⟨hforward, hwithin⟩ := ht.cursor_forward hi
    exact ⟨hphase, hforward, hwork ▸ hwithin, hwork⟩
  case stops => exact ((scansTo_of_exec hscan h).stops hi).1
  case pass =>
    obtain ⟨n, t, hn, p⟩ := exists_pass hp hk
    exact ⟨n, t, p.pos, hn, p.run_eq (.inl hh), p.idle, fun m hm => p.run_before (.inl hh) hm⟩

/-- Settles O35: one step for the push, then the pass, then rest. -/
theorem machinePassIsExtract : Obligations.MachinePassIsExtract := by
  intro s c hp hh hc
  obtain ⟨n, es, t, rfl, hn, hrun, -⟩ := exists_run_push hp hh hc (.inl rfl)
  refine ⟨es, fun m hm => ?_⟩
  obtain ⟨j, rfl⟩ := Nat.exists_eq_add_of_le (Nat.le_trans hn hm)
  rw [run_add hrun j]
  exact run_of_quiescent ⟨rfl, rfl⟩ j

/-- Settles O36. -/
theorem extractOperationIsTheFunction : Obligations.ExtractOperationIsTheFunction := by
  intro s c hp hc
  obtain ⟨n, es, hn, p⟩ := exists_pass_of_push s c
  have hrun := p.runPass_eq (m := (s.rb ++ c).length + 1) (by rw [List.length_append]; exact hn)
  refine ⟨es, (execExtract_eq_next_iff s.rb c s _).2 ⟨hp, hc, rfl, _, hrun, ?_⟩⟩
  have hframes : (s.out ++ (extract block s.rb c).1).drop s.out.length = (extract block s.rb c).1 :=
    List.drop_left
  rw [passAnswer, State.afterPass, hframes]
  rfl

/-- Settles O40: on the residual an operation stops, and what `WAITH` and `WAITB` are decoded from is
shorter than the longest frame. -/
theorem residualIsBounded : Obligations.ResidualIsBounded := by
  refine ⟨fun s t rb c h => ?pass, fun s t r h => ?waith, fun s t r h => ?waitb,
    fun s t hinv h => ?endPass, rfl, rfl⟩
  case pass =>
    obtain ⟨-, -, -, u, hu, rfl⟩ := (execExtract_eq_next_iff rb c s t).1 h
    obtain ⟨n, es, hn, p⟩ := exists_pass_of_push s c
    rw [p.runPass_eq (by rw [List.length_append]; exact hn)] at hu
    cases hu
    exact (residualForm_extract s.rb c).bounded
  case waith =>
    obtain ⟨hs, rfl⟩ := (execWaith_eq_next_iff r s t).1 h
    obtain ⟨-, hn⟩ := (wf_waith_iff block r).1 (State.wf_of_selected hs)
    exact Nat.le_sub_one_of_lt hn
  case waitb =>
    obtain ⟨hs, rfl⟩ := (execWaitb_eq_next_iff r s t).1 h
    obtain ⟨-, -, n, hd, hn⟩ := (wf_waitb_iff block r).1 (State.wf_of_selected hs)
    obtain ⟨-, -, hmax⟩ := lenOff_lt_declaredLen block block_wellFormed r n hd
    exact ⟨n, hd, hn, hmax⟩
  case endPass =>
    obtain ⟨hs, rfl⟩ := (execEnd_eq_next_iff s t).1 h
    exact hinv.scan (State.phase_of_selected hs)

/-- Settles O45: the passes over the chunks are one pass over the frames, which leaves no residual; by the
account of the bytes nothing is then left that could have been dropped. -/
theorem cleanStreamIsExtractedExactly : Obligations.CleanStreamIsExtractedExactly := by
  intro s fs cs hinv hp hrb hfs hcs hflat hh
  obtain ⟨n, t, hrun, hserved⟩ := exists_run_served hcs hinv hp hh
  have hclean : extractAll block s.rb cs = (fs.map Frame.mk, []) := by
    rw [hrb, extractAll_nil_eq block_wellFormed, hflat, extract_frames block_wellFormed hfs]
  have hres := hserved.residual
  have hout := hserved.out
  rw [hclean] at hres hout
  refine ⟨n, t, hrun, hserved.quiescent, hres, hout, (hserved.log.eq_of_length ?_).symm⟩
  have hemitted : ((fs.map Frame.mk).map fun f => f.raw.length).sum = fs.flatten.length := by
    rw [List.map_map, List.length_flatten]; rfl
  have hacc := hserved.account
  simp only [State.accounted, State.held_of_idle hp, State.held_of_idle hserved.quiescent.1, hres, hrb,
    hout, hflat, List.map_append, List.sum_append, hemitted, List.length_nil] at hacc
  omega

end

section
/-! SUPPORT. A pass over the residual alone: an empty chunk leads back (`42_host_ops.md` R131). -/

namespace Sys2Proof.Machine

/-- On a residual of the form of R32 an operation stops the pass: `END`, `WAITH` or `WAITB`, by how much of
a frame is there. -/
theorem ResidualForm.exists_stops {r : List Byte} (hr : ResidualForm r) :
    ∃ i, DecodesTo block r i ∧ i.continuesPass = false := by
  by_cases hnil : r = []
  · exact ⟨.endPass, .endPass hnil, rfl⟩
  · have hsync := hr.opens hnil
    rcases Nat.lt_or_ge r.length block.hdrLen with hshort | hh
    · exact ⟨.waith r, .waith hsync hshort, rfl⟩
    · obtain ⟨n, hd⟩ := exists_declaredLen block block_wellFormed r hh
      exact ⟨.waitb r, .waitb n hsync hh hd (hr.incomplete n hh hd), rfl⟩

/-- In `IDLE` the invariants leave nothing but `RB` in the buffers, so a pass that emits and logs nothing and
leaves that residual leads back (R32 item 3). -/
theorem State.Inv.afterPass_residual {s : State} (h : s.Inv) (hp : s.phase = .idle) :
    s.afterPass [] [] s.rb = s := by
  obtain ⟨hw, hk⟩ := h.idle hp
  rw [State.afterPass, List.append_nil, List.append_nil, ← hp, ← hw, ← hk]

/-- The pass of an empty chunk is one operation, which stores the residual again. -/
theorem State.Inv.pass_of_push_nil {s : State} (h : s.Inv) (hp : s.phase = .idle) :
    Pass 1 (s.startPass []) s := by
  obtain ⟨i, hdec, hi⟩ := h.residualForm.exists_stops
  have hbytes : (s.startPass []).w.drop (s.startPass []).k = s.rb := List.append_nil s.rb
  have hs : (s.startPass []).selected = .ok i :=
    (State.selected_eq_ok_iff _ i).2 ⟨State.startPass_phase s [], Nat.zero_le _, hbytes ▸ hdec.decode_eq⟩
  obtain ⟨t, ht⟩ := exists_scansTo hs
  have hback : t = s :=
    calc t = (s.startPass []).afterPass [] [] s.rb :=
          hbytes ▸ ht.eq_afterPass hi (State.startPass_rb s [])
      _ = s.afterPass [] [] s.rb := rfl
      _ = s := h.afterPass_residual hp
  rw [hback] at ht
  exact .stops ht hi

end Sys2Proof.Machine
end

section
/-! The statements about the host operations (`42_host_ops.md` R131, R133). -/

open Sys2Proof Sys2Proof.Machine

/-- Settles O3: the residual was left where a pass stops, so a pass over it alone stops there again. -/
theorem pushStartsAPass : Obligations.PushStartsAPass := by
  refine fun s c => ⟨fun hp hc => ?starts, fun hp t h => ?duringPass, fun hc t h => ?overLimit,
    fun hinv t h => ?bound, fun hinv hp => ?empty⟩
  case starts => exact (execPush_eq_next_iff c s _).2 ⟨hp, hc, rfl⟩
  case duringPass =>
    obtain ⟨hidle, -, -⟩ := (execPush_eq_next_iff c s t).1 h
    rw [hp] at hidle
    cases hidle
  case overLimit => exact workBufferNeverOverflows.2 s c hc t h
  case bound => exact (workBufferNeverOverflows.1 s t c hinv h).2
  case empty =>
    have hrun := (hinv.pass_of_push_nil hp).runPass_eq (Nat.le_add_left 1 (s.rb ++ []).length)
    exact ⟨s.answerWith (passAnswer s s),
      (execExtract_eq_next_iff s.rb [] s _).2 ⟨hp, Nat.zero_le _, rfl, s, hrun, rfl⟩, rfl⟩

/-- Settles O2: `RESET` is `State.clear`, and clearing a cleared state changes nothing. -/
theorem resetClearsInEitherPhase : Obligations.ResetClearsInEitherPhase := fun s =>
  ⟨(execReset_eq_next_iff s s.clear).2 rfl, (execReset_eq_next_iff s.clear s.clear).2 rfl⟩

end

section
/-! SUPPORT. Nothing stops a run that meets the invariants while the host keeps its duty (`60_exceptions.md`
R140, `42_host_ops.md` R135): every state has a step, and the script only loses moves. -/

namespace Sys2Proof.Machine

/-! ### Every state has a step -/

/-- In `SCAN` the decode always selects an operation (R101). -/
theorem State.exists_selected {s : State} (hp : s.phase = .scan) (hk : s.k ≤ s.w.length) :
    ∃ i, s.selected = .ok i := by
  obtain ⟨i, hdec⟩ := exists_decode block_wellFormed (s.w.drop s.k)
  exact ⟨i, (State.selected_eq_ok_iff s i).2 ⟨hp, hk, hdec⟩⟩

/-- A pass in progress has a step, whatever the host presents (R140). -/
theorem exists_step_of_scan {s : State} (hp : s.phase = .scan) (hk : s.k ≤ s.w.length)
    (hr : ∀ h, s.host ≠ .reset :: h) : ∃ t, step s = .next t := by
  obtain ⟨i, hs⟩ := State.exists_selected hp hk
  obtain ⟨t, ht⟩ := exists_scansTo ((State.selected_withHost s (afterGap s.host)).trans hs)
  exact ⟨t, (step_eq_exec hr hs).trans ht.exec_eq⟩

/-- An idle block has a step: it takes what the host asks, or waits (R131, R155). -/
theorem exists_step_of_idle {s : State} (hp : s.phase = .idle) (hlimit : s.HostWithinLimit) :
    ∃ t, step s = .next t := by
  cases hh : s.host with
  | nil => exact ⟨s, step_nothing hp hh⟩
  | cons a h =>
    cases a with
    | gap => exact ⟨_, step_gap hp hh⟩
    | reset => exact ⟨_, step_reset hh⟩
    | push c =>
      have hc : c.length ≤ block.chunkMax := hlimit c (by rw [hh]; exact List.mem_cons_self)
      exact ⟨_, (step_push hp hh).trans ((execPush_eq_next_iff c _ _).2 ⟨hp, hc, rfl⟩)⟩

theorem State.Inv.exists_step {s : State} (hinv : s.Inv) (hlimit : s.HostWithinLimit) :
    ∃ t, step s = .next t := by
  cases hp : s.phase with
  | idle => exact exists_step_of_idle hp hlimit
  | scan =>
    by_cases hreset : ∃ h, s.host = .reset :: h
    · obtain ⟨h, hh⟩ := hreset
      exact ⟨_, step_reset hh⟩
    · exact exists_step_of_scan hp hinv.cursor (not_exists.1 hreset)

/-! ### The script only loses moves -/

theorem afterGap_suffix (h : List HostAct) : afterGap h <:+ h := by
  unfold afterGap
  split
  · exact List.suffix_cons _ _
  · exact List.suffix_refl _

/-- A step takes moves off the head of the script and adds none (log entry 4). -/
theorem step_host_suffix {s t : State} (h : step s = .next t) : t.host <:+ s.host := by
  cases step_cases s t h with
  | reset l hh => rw [hh]; exact List.suffix_cons _ l
  | push c l hh => rw [hh]; exact List.suffix_cons _ l
  | wait => exact afterGap_suffix s.host
  | scan i _ hr hs =>
    rw [step_host_of_scan (State.phase_of_selected hs) hr h]
    exact afterGap_suffix s.host

/-- A host that keeps to `CHUNK_MAX` goes on doing so (R135). -/
theorem State.HostWithinLimit.of_step {s t : State} (hlimit : s.HostWithinLimit)
    (h : step s = .next t) : t.HostWithinLimit :=
  fun c hc => hlimit c ((step_host_suffix h).mem hc)

/-! ### Runs -/

/-- Where a property gives a step and every step keeps it, a run of any length goes on and keeps it. -/
theorem exists_run_of_progress {P : State → Prop} (hstep : ∀ s, P s → ∃ t, step s = .next t ∧ P t)
    (n : Nat) {s : State} (hs : P s) : ∃ t, run n s = .next t ∧ P t := by
  induction n generalizing s with
  | zero => exact ⟨s, rfl, hs⟩
  | succ n ih =>
    obtain ⟨u, hu, hPu⟩ := hstep s hs
    rw [run_succ n s u hu]
    exact ih hPu

/-- The idle block uses up the gaps of the script, and nothing else changes (R155). -/
theorem run_gaps {n : Nat} {s : State} {h : List HostAct} (hp : s.phase = .idle)
    (hh : s.host = List.replicate n .gap ++ h) : run n s = .next (s.withHost h) := by
  induction n generalizing s with
  | zero => exact congrArg (fun l => Host.Outcome.next (s.withHost l)) hh
  | succ n ih =>
    rw [run_succ n s _ (step_gap hp hh)]
    exact ih hp rfl

end Sys2Proof.Machine
end

section
/-! SUPPORT. The event of a rejected candidate (`60_exceptions.md` R142). -/

namespace Sys2Proof.Machine

/-- A rejected candidate is covered bytes and a stored trailer that is not theirs (R85). -/
theorem exists_wrong_trailer {f : List Byte} (hwf : (Instr.reject f).wf block = true) :
    ∃ h sx sa, f = h ++ [sx, sa] ∧ trailer block h ≠ (sx, sa) := by
  obtain ⟨hcand, hv⟩ := (wf_reject_iff block f).1 hwf
  obtain ⟨-, hd⟩ := (isCandidate_iff block f).1 hcand
  obtain ⟨-, hmin, -⟩ := lenOff_lt_declaredLen block block_wellFormed f _ hd
  obtain ⟨h, sx, sa, rfl⟩ := exists_trailer_split f (Nat.le_of_add_left_le hmin)
  exact ⟨h, sx, sa, rfl, fun he => Bool.eq_false_iff.1 hv ((valid_append_iff rfl h sx sa).2 he)⟩

end Sys2Proof.Machine
end

section
/-! The statements of `60_exceptions.md`. -/

open Sys2Proof Sys2Proof.Machine

/-- Settles O50: the invariants and the host's duty give a step, and every step keeps both. -/
theorem noConditionIsFatal : Obligations.NoConditionIsFatal := by
  intro s hinv hlimit n
  refine exists_run_of_progress (P := fun s => s.Inv ∧ s.HostWithinLimit) ?_ n ⟨hinv, hlimit⟩
  rintro u ⟨huinv, hulimit⟩
  obtain ⟨t, ht⟩ := huinv.exists_step hulimit
  exact ⟨t, ht, huinv.of_step ht, hulimit.of_step ht⟩

/-- Settles O13: `REJECT` is selected only for a candidate whose stored trailer is not the recomputed one. -/
theorem rejectReportsBothTrailers : Obligations.RejectReportsBothTrailers := by
  intro s t f h
  obtain ⟨hs, rfl⟩ := (execReject_eq_next_iff f s t).1 h
  obtain ⟨g, sx, sa, rfl, hne⟩ := exists_wrong_trailer (State.wf_of_selected hs)
  have hlen : (g ++ [sx, sa]).length = g.length + 2 := List.length_append
  refine ⟨(trailer block g).1, (trailer block g).2, sx, sa, ?event, ?computed, ?storedXor, ?storedAdd,
    ?differ⟩
  case event => rw [rejectEvent_append, hlen]; rfl
  case computed => rw [hlen, Nat.add_sub_cancel, List.take_left]
  case storedXor => rw [hlen, Nat.add_sub_cancel]; simp
  case storedAdd => simp
  case differ => exact not_and_or.1 fun ⟨hx, ha⟩ => hne (Prod.ext hx ha)

/-- Settles O32: gap after gap, then at rest. -/
theorem residualWaitsWithoutTimeout : Obligations.ResidualWaitsWithoutTimeout :=
  fun _ n _ hp => ⟨fun hh => run_gaps hp hh, fun hh => run_of_quiescent ⟨hp, hh⟩ n⟩

end

section
/-! The statement of `70_reset_and_hazards.md`. -/

open Sys2Proof Sys2Proof.Machine

/-- Settles O4: the residual is empty at reset, so the pass `PUSH` starts is over the chunk alone. -/
theorem firstChunkIsScannedFirst : Obligations.FirstChunkIsScannedFirst := by
  intro b c hc
  have hpush : exec (.push (b :: c)) State.reset = .next (State.reset.startPass (b :: c)) :=
    (execPush_eq_next_iff (b :: c) State.reset _).2 ⟨rfl, hc, rfl⟩
  have hw : (State.reset.startPass (b :: c)).w = b :: c := State.startPass_w State.reset (b :: c)
  have hsync : (State.reset.startPass (b :: c)).syncByte = some [b] :=
    memRead_byte (congrArg (·[0]?) hw)
  exact ⟨_, hpush, State.startPass_phase _ _, hw, State.startPass_k _ _, hsync⟩

end
